-- ==== Sys2Proof/Word.lean ====
section
/-! DEFINITION. The words of the machine: widths and plain names, nothing a rule gives a meaning to. -/

namespace Sys2Proof

/-- A byte, the unit of the memory an instruction word is fetched from (20_memory.md rule R54). -/
abbrev Byte := BitVec 8

/-- A 32-bit A64 instruction word (30_encoding.md rule R72). -/
abbrev InstrWord := BitVec 32

/-- A 64-bit value: a general register, the pc, a virtual address (10_state.md rules R20, R22, R36). -/
abbrev Word64 := BitVec 64

/-- The name of a processing element: its place in the list of the system's PEs (00_scope.md rule R7, `PEs`). -/
abbrev PEId := Nat

/-- A VMID value. Its width is the open parameter `VMID_WIDTH` (00_scope.md rule R7), so it is a number below `2 ^ VMID_WIDTH`. -/
abbrev Vmid := Nat

end Sys2Proof
end

