-- ==== Sys2Proof/Syntax.lean ====
section
/-! DEFINITION. The instructions: one constructor per row of spec/opcode_table.json. -/

namespace Sys2Proof

/-- The two forms. `t` is the number of the register operand `Xt`, which the word holds in `Rt`; an omitted operand is
`t = 31` (30_encoding.md rules R92, R93). -/
inductive Instr where
  /-- `TLBI VAALE1OS{, <Xt>}` (41_tlbi_vaale1os.md rule R130). -/
  | tlbiVaale1os (t : Nat)
  /-- `TLBI VAALE1OSNXS{, <Xt>}` (42_tlbi_vaale1osnxs.md rule R140). -/
  | tlbiVaale1osnxs (t : Nat)
  deriving DecidableEq, Repr

/-- The number of the register operand. -/
def Instr.rt : Instr → Nat
  | .tlbiVaale1os t => t
  | .tlbiVaale1osnxs t => t

end Sys2Proof
end

