-- ==== Sys2Proof/WellFormed.lean ====
section
/-! DEFINITION. When an instruction of the syntax is one the hardware has. -/

namespace Sys2Proof

/-- `0 <= t <= 31`: the register number fits the 5-bit `Rt` field (00_scope.md rule R10, 10_state.md rule R21). -/
def WellFormed (i : Instr) : Bool :=
  match i with
  | .tlbiVaale1os t => t ≤ 31
  | .tlbiVaale1osnxs t => t ≤ 31

end Sys2Proof
end

