-- ==== Sys2Proof/Decode.lean ====
section
/-! DEFINITION. From bytes to an instruction and back (30_encoding.md). The values of op0, op1, CRn, CRm and op2 are the
source's (rule R71). Where the fields sit in the word is general knowledge (rule R72, assumption log 20: PRESUMED). -/

namespace Sys2Proof

/-- The fields of an A64 System instruction word, by the layout of rule R72. -/
structure SysFields where
  /-- bits [31:22], 0b1101010100 for a System instruction -/
  fixed : BitVec 10
  /-- bit 21, 0 for the form that passes a register to the operation -/
  l : BitVec 1
  op0 : BitVec 2
  op1 : BitVec 3
  crn : BitVec 4
  crm : BitVec 4
  op2 : BitVec 3
  rt : BitVec 5
  deriving DecidableEq, Repr

/-- The fields read from a word (rule R72). -/
def fieldsOf (w : InstrWord) : SysFields where
  fixed := w.extractLsb' 22 10
  l := w.extractLsb' 21 1
  op0 := w.extractLsb' 19 2
  op1 := w.extractLsb' 16 3
  crn := w.extractLsb' 12 4
  crm := w.extractLsb' 8 4
  op2 := w.extractLsb' 5 3
  rt := w.extractLsb' 0 5

/-- The word made of the fields (rule R72). -/
def wordOf (f : SysFields) : InstrWord :=
  f.fixed ++ f.l ++ f.op0 ++ f.op1 ++ f.crn ++ f.crm ++ f.op2 ++ f.rt

/-- One instruction word to an instruction: the two rows of rule R71, and `none` for every other word, which this spec
does not specify (rule R89). -/
def decodeWord (w : InstrWord) : Option Instr :=
  if (fieldsOf w).fixed = 0b1101010100#10 ∧ (fieldsOf w).l = 0#1 ∧ (fieldsOf w).op0 = 0b01#2 ∧ (fieldsOf w).op1 = 0b000#3 ∧
      (fieldsOf w).crm = 0b0001#4 ∧ (fieldsOf w).op2 = 0b111#3 then
    if (fieldsOf w).crn = 0b1000#4 then some (.tlbiVaale1os (fieldsOf w).rt.toNat)
    else if (fieldsOf w).crn = 0b1001#4 then some (.tlbiVaale1osnxs (fieldsOf w).rt.toNat)
    else none
  else none

/-- Four bytes to the word they hold, the byte at the lowest address being bits [7:0] (20_memory.md rule R54). -/
def wordOfBytes (b0 b1 b2 b3 : Byte) : InstrWord := b3 ++ b2 ++ b1 ++ b0

/-- A word's bytes in memory order, lowest address first (20_memory.md rule R54). -/
def bytesOfWord (w : InstrWord) : List Byte :=
  [w.extractLsb' 0 8, w.extractLsb' 8 8, w.extractLsb' 16 8, w.extractLsb' 24 8]

/-- What the decoder answers on a list of bytes. -/
inductive DecodeResult where
  /-- an instruction, and the bytes after it -/
  | instr (i : Instr) (rest : List Byte)
  /-- a whole word that this spec does not specify (30_encoding.md rule R89) -/
  | notSpecifiedHere (w : InstrWord)
  /-- fewer than the four bytes of a word (30_encoding.md rule R91) -/
  | tooShort
  deriving DecidableEq, Repr

/-- The decoder, total on any bytes. -/
def decodeBytes : List Byte → DecodeResult
  | b0 :: b1 :: b2 :: b3 :: rest =>
    match decodeWord (wordOfBytes b0 b1 b2 b3) with
    | some i => .instr i rest
    | none => .notSpecifiedHere (wordOfBytes b0 b1 b2 b3)
  | _ => .tooShort

/-- The fields of an instruction: the rows of rule R71 with `Rt = t` (rules R72 to R74). -/
def fieldsOfInstr (i : Instr) : SysFields :=
  match i with
  | .tlbiVaale1os t =>
    { fixed := 0b1101010100#10, l := 0#1, op0 := 0b01#2, op1 := 0b000#3, crn := 0b1000#4, crm := 0b0001#4, op2 := 0b111#3
      rt := BitVec.ofNat 5 t }
  | .tlbiVaale1osnxs t =>
    { fixed := 0b1101010100#10, l := 0#1, op0 := 0b01#2, op1 := 0b000#3, crn := 0b1001#4, crm := 0b0001#4, op2 := 0b111#3
      rt := BitVec.ofNat 5 t }

/-- The encoder: the word of a well-formed instruction (rules R71 to R74). -/
def encode (i : Instr) : InstrWord := wordOf (fieldsOfInstr i)

/-- The host's reading of an opcode-table word: the low `nbits` bits of `w`, the bits above them zero, laid out as four
bytes in memory order and given to the decoder. -/
def decodeTableWord (nbits w : Nat) : Option Instr :=
  match decodeBytes (bytesOfWord (BitVec.ofNat 32 (w % 2 ^ nbits))) with
  | .instr i _ => some i
  | .notSpecifiedHere _ => none
  | .tooShort => none

end Sys2Proof
end

