-- ==== Sys2Proof/Machine/Terms.lean ====
section
/-! DEFINITION. The terms of the spec as plain data: Exception levels, Security states, translation regimes, the system
register fields, TLB entries, accesses in flight, invalidation operations and the events that move the system. -/

namespace Sys2Proof.Machine

/-- The Exception levels `PSTATE.EL` takes (10_state.md rule R23). -/
inductive EL where
  | el0 | el1 | el2 | el3
  deriving DecidableEq, Repr, Inhabited

/-- The Security states. The source names only Secure; the others are general knowledge G10 (10_state.md rule R33). -/
inductive SecurityState where
  | secure | nonSecure | realm | root
  deriving DecidableEq, Repr, Inhabited

/-- A regime the invalidation can target (20_memory.md rule R52, 40_invalidation_operation.md rule R100). -/
inductive Regime where
  | regimeEL10 | regimeEL20
  deriving DecidableEq, Repr, Inhabited

/-- The regime a TLB entry belongs to; `otherRegime` is every regime that is never a target (10_state.md rule R36). -/
inductive EntryRegime where
  | regimeEL10 | regimeEL20 | otherRegime
  deriving DecidableEq, Repr, Inhabited

/-- The third argument of the call: a VMID, or the value that means no VMID is compared (10_state.md rule R30). -/
inductive VmidArg where
  | vmid (v : Vmid)
  | vmidNone
  deriving DecidableEq, Repr

/-- The fourth argument; the only value these instructions pass (40_invalidation_operation.md rule R100). -/
inductive Shareability where
  | osh
  deriving DecidableEq, Repr

/-- The fifth argument; the only value these instructions pass (40_invalidation_operation.md rule R100). -/
inductive TlbiLevel where
  | last
  deriving DecidableEq, Repr

/-- The sixth argument (40_invalidation_operation.md rules R100, R117). -/
inductive TlbiAttr where
  | allAttr | excludeXS
  deriving DecidableEq, Repr

/-- The translation granules (20_memory.md rule R60). -/
inductive Granule where
  | g4KB | g16KB | g64KB
  deriving DecidableEq, Repr, Inhabited

/-- The stage an entry is of. `combined` is an entry that caches stage 1 and stage 2 together; whether it counts as a
stage 1 entry is the open parameter of 20_memory.md rule R59. -/
inductive Stage where
  | stage1 | combined | other
  deriving DecidableEq, Repr, Inhabited

/-- The width of the translation table entry that was cached (20_memory.md rule R63). -/
inductive DescBits where
  | bits64 | bits128
  deriving DecidableEq, Repr, Inhabited

/-- One cached copy of a translation table entry (10_state.md rule R36). -/
structure TLBEntry where
  stage : Stage
  descBits : DescBits
  finalLevel : Bool
  level : Int
  granule : Granule
  regime : EntryRegime
  security : SecurityState
  vmid : Vmid
  asid : Nat
  global : Bool
  vaBase : Word64
  log2Size : Nat
  deriving DecidableEq, Repr, Inhabited

/-- A memory access that has started and not completed: the entry its translation used and its XS attribute
(10_state.md rule R38). -/
structure Access where
  entry : TLBEntry
  xs : Bool
  /-- MODEL'S OWN: its number among the accesses its PE has started, which tells it from every other (assumption log 19) -/
  serial : Nat
  deriving DecidableEq, Repr, Inhabited

/-- `HCR_EL2`: the fields the pseudocode reads (10_state.md rule R26), and `E2H`, `TGE`, which only a helper reads (R31). -/
structure HcrEL2 where
  ttlb : Bool
  ttlbos : Bool
  e2h : Bool
  tge : Bool
  deriving DecidableEq, Repr, Inhabited

/-- `SCR_EL3`: the fields of 10_state.md rule R27, and `HXEn`, which only a helper reads (R31). -/
structure ScrEL3 where
  ns : Bool
  nse : Bool
  eel2 : Bool
  fgten : Bool
  hxen : Bool
  deriving DecidableEq, Repr, Inhabited

/-- `HFGITR_EL2` (10_state.md rule R28). -/
structure HfgitrEL2 where
  tlbivaale1os : Bool
  deriving DecidableEq, Repr, Inhabited

/-- `HCRX_EL2` (10_state.md rule R29). -/
structure HcrxEL2 where
  fnxs : Bool
  fgtnxs : Bool
  deriving DecidableEq, Repr, Inhabited

/-- `PSTATE`: the Exception level (10_state.md rule R23), and whether exception entry has masked interrupts, which only
the entry of general knowledge G7 writes. -/
structure PState where
  el : EL
  interruptsMasked : Bool
  deriving DecidableEq, Repr, Inhabited

/-- `ESR_ELx`: the exception class, the IL bit and the ISS (general knowledge G7). -/
structure Syndrome where
  ec : BitVec 6
  il : Bool
  iss : BitVec 25
  deriving DecidableEq, Repr, Inhabited

/-- The registers an exception taken to one Exception level saves into, and its vector base (general knowledge G7). -/
structure ExcBank where
  esr : Syndrome
  elr : Word64
  spsr : PState
  vbar : Word64
  deriving DecidableEq, Repr, Inhabited

/-- A processing element: its registers, its TLB and its accesses in flight (10_state.md; 60_exceptions.md rule R169). -/
structure PE where
  /-- `X0` to `X30`; register 31 is no storage (10_state.md rule R21) -/
  x : Vector Word64 31
  pc : Word64
  pstate : PState
  hcrEL2 : HcrEL2
  scrEL3 : ScrEL3
  hfgitrEL2 : HfgitrEL2
  hcrxEL2 : HcrxEL2
  /-- `VTTBR_EL2.VMID`, read by `VMID[]` only (10_state.md rules R30, R31) -/
  vttbrEL2vmid : BitVec 16
  /-- `VTCR_EL2.VS`, read by `VMID[]` only (10_state.md rule R31) -/
  vtcrEL2vs : Bool
  excEL1 : ExcBank
  excEL2 : ExcBank
  excEL3 : ExcBank
  /-- `TLB(pe)`: a set, held as a list without repeats (10_state.md rule R35) -/
  tlb : List TLBEntry
  /-- `InFlight(pe)`, oldest first (10_state.md rule R38) -/
  inFlight : List Access
  /-- MODEL'S OWN: how many accesses the PE has started, the number of the next one (assumption log 19) -/
  started : Nat
  deriving DecidableEq, Repr

/-- An issued invalidation: the seven arguments of the call, the issuing PE, and what it captured at issue
(10_state.md rule R39, 40_invalidation_operation.md rule R100). -/
structure TlbiOp where
  issuer : PEId
  security : SecurityState
  regime : Regime
  vmid : VmidArg
  shareability : Shareability
  level : TlbiLevel
  attr : TlbiAttr
  xt : Word64
  el2Enabled : Bool
  eel2 : Bool
  deriving DecidableEq, Repr

/-- How far an operation is on one PE of its domain: the flag `performed`, the set that `Perform` was required to remove
there, and which accesses the PE had started before it, which completion reads (40_invalidation_operation.md rules R114,
R116; assumption log 16). -/
structure Progress where
  pe : PEId
  performed : Bool
  required : List TLBEntry
  /-- the accesses whose `serial` is below this number had started when `Perform` was taken; 0 before that -/
  before : Nat
  deriving DecidableEq, Repr

/-- A record of `PendingTLBI`: the operation and its progress on each PE of its domain (10_state.md rule R39). -/
structure Pending where
  /-- MODEL'S OWN: its number among the operations issued in the system, which tells it from every other (assumption
  log 12) -/
  serial : Nat
  op : TlbiOp
  progress : List Progress
  deriving DecidableEq, Repr

/-- What can happen next in the system: a PE executes the instruction at its pc, or one of the agents acts that the spec
lets act at any step. An event that is not enabled when its turn comes changes nothing. -/
inductive Event where
  /-- PE `pe` executes the instruction at its pc -/
  | execute (pe : PEId)
  /-- the invalidation agent performs pending record `index` on `pe`; `extra` are entries it removes beside the required
  ones (40_invalidation_operation.md rules R114, R115) -/
  | perform (index : Nat) (pe : PEId) (extra : List TLBEntry)
  /-- an entry appears in `TLB(pe)` (10_state.md rule R37 (a)) -/
  | fill (pe : PEId) (entry : TLBEntry)
  /-- an entry disappears from `TLB(pe)` (10_state.md rule R37 (b)) -/
  | evict (pe : PEId) (entry : TLBEntry)
  /-- a memory access of `pe` starts, translated by an entry of `TLB(pe)` (10_state.md rule R38) -/
  | startAccess (pe : PEId) (entry : TLBEntry) (xs : Bool)
  /-- access number `index` of `InFlight(pe)` completes (10_state.md rule R38) -/
  | finishAccess (pe : PEId) (index : Nat)
  /-- pending record `index`, if complete, is dropped (40_invalidation_operation.md rule R116) -/
  | retire (index : Nat)
  deriving DecidableEq, Repr, Inhabited

end Sys2Proof.Machine
end

