-- ==== Sys2Proof/Config.lean ====
section
/-! DEFINITION. What an implementation fixes (the record `Config`, 00_scope.md rule R7), and the free values: constants
with no body, which no proof can evaluate. The record is plain data and stands in `State` as a field that no step
changes, so that a statement about every state is a statement about every configuration (assumption log 1). -/

namespace Sys2Proof

open Sys2Proof.Machine

/-- The optional features the source names (00_scope.md rule R2), and those only the reference helpers name (G4). -/
inductive Feature where
  | tlbios | xs | d128 | rme | lpa2 | fgt | hcx | sel2 | vhe | vmid16
  deriving DecidableEq, Repr

/-- The open parameter `res0_policy` (30_encoding.md rule R77, 92_eei_decisions.md D11). -/
inductive Res0Policy where
  /-- non-zero RES0 bits of the argument have no effect -/
  | ignore
  /-- the model gives the instruction no meaning when they are not zero -/
  | refuse
  deriving DecidableEq, Repr

/-- The open parameter `pc_wrap`: what `pc + 4` is when it exceeds the 64-bit address space (10_state.md rule R22,
92_eei_decisions.md D3). -/
inductive PcWrap where
  /-- the pc becomes a free value -/
  | free
  /-- the pc wraps to the low end -/
  | wrap
  /-- the model gives the instruction no meaning there -/
  | refuse
  deriving DecidableEq, Repr

/-- Where the pseudocode's helpers come from (10_state.md rule R33, 92_eei_decisions.md D2). -/
inductive HelperSource where
  /-- the reference definitions of general knowledge G4 -/
  | reference
  /-- uninterpreted functions of the configuration and the PE -/
  | uninterpreted
  deriving DecidableEq, Repr

/-- What a raised exception does to the model (60_exceptions.md rules R150, R153; 92_eei_decisions.md D15). -/
inductive ExceptionModel where
  /-- the spec's decision D15: a fault outcome of the step that carries its arguments -/
  | faultOutcome
  /-- "a model that continues into a handler": the exception entry of general knowledge G7 and G8 -/
  | enterHandler
  deriving DecidableEq, Repr

/-- The configuration (00_scope.md rule R7), the other open parameters of 92_eei_decisions.md, and the parameters that
only the reference helpers of G4 read. `PEs` is the index range of the list of PEs in `State`. -/
structure Config where
  featTlbios : Bool
  featXs : Bool
  featD128 : Bool
  featRme : Bool
  featLpa2 : Bool
  featFgt : Bool
  featHcx : Bool
  ttlImplemented : Bool
  haveEL3 : Bool
  haveEL2 : Bool
  /-- `(p, q)` is listed when PE `q` is in `OSH(p)`; `p` itself is in `OSH(p)` without being listed -/
  osh : List (PEId × PEId)
  vmidWidth : Nat
  res0Policy : Res0Policy
  pcWrap : PcWrap
  /-- `combined_counts_as_stage1` (20_memory.md rule R59) -/
  combinedCountsAsStage1 : Bool
  helpers : HelperSource
  exceptions : ExceptionModel
  /-- read by the reference helpers only (G4), with the four fields after it -/
  featSel2 : Bool
  featVhe : Bool
  featVmid16 : Bool
  /-- G4's "EL2 using AArch64". The spec does not say where it lives, nor whether it differs by PE or changes: one constant for
  all PEs (assumption log 2: DESIGN CHOICE). -/
  el2UsingAArch64 : Bool
  /-- G4's "the PE is Secure-only", where EL3 is not implemented. As `el2UsingAArch64`, one constant for all PEs (assumption
  log 2: DESIGN CHOICE). -/
  secureOnly : Bool
  deriving DecidableEq, Repr

/-- The configuration of the reset state (assumption log 1: a DESIGN CHOICE, on which no statement rests): every feature
is implemented, EL2 and EL3 are, and two PEs share one Outer Shareable domain. -/
def Config.reset : Config where
  featTlbios := true
  featXs := true
  featD128 := true
  featRme := true
  featLpa2 := true
  featFgt := true
  featHcx := true
  ttlImplemented := true
  haveEL3 := true
  haveEL2 := true
  osh := [(0, 1), (1, 0)]
  vmidWidth := 16
  res0Policy := .ignore
  pcWrap := .free
  combinedCountsAsStage1 := true
  helpers := .reference
  exceptions := .faultOutcome
  featSel2 := true
  featVhe := true
  featVmid16 := true
  el2UsingAArch64 := true
  secureOnly := false

/-- `IsFeatureImplemented(F)` (10_state.md rule R33). -/
def Config.isFeatureImplemented (cfg : Config) : Feature → Bool
  | .tlbios => cfg.featTlbios
  | .xs => cfg.featXs
  | .d128 => cfg.featD128
  | .rme => cfg.featRme
  | .lpa2 => cfg.featLpa2
  | .fgt => cfg.featFgt
  | .hcx => cfg.featHcx
  | .sel2 => cfg.featSel2
  | .vhe => cfg.featVhe
  | .vmid16 => cfg.featVmid16

/-- `HaveEL(el)`: EL0 and EL1 always are implemented (10_state.md rule R33, G4). -/
def Config.haveEL (cfg : Config) : EL → Bool
  | .el0 => true
  | .el1 => true
  | .el2 => cfg.haveEL2
  | .el3 => cfg.haveEL3

/-- FREE VALUE: which event comes when the agenda is empty; the argument is the count of events drawn so far
(40_invalidation_operation.md rules R114, R115; assumption log 7). -/
opaque Config.freeEvent : Nat → Event

/-- FREE VALUE: the TLB contents after reset (70_reset_and_hazards.md rule R181; assumption log 6). -/
opaque Config.resetTlb : PEId → List TLBEntry

/-- FREE VALUE: the accesses in flight after reset (10_state.md rule R46; assumption log 6). -/
opaque Config.resetInFlight : PEId → List Access

/-- FREE VALUE: the pc after an instruction at the top of the address space (10_state.md rule R22; assumption log 10). -/
opaque Config.freePcAfterTop : Config → PE → Word64

/-- FREE VALUE: the vector offset of an exception taken to the current Exception level, which G7 and G8 do not give
(assumption log 4). -/
opaque Config.freeSameElOffset : Config → PE → Word64

/-- FREE VALUE: `ESR_ELx.IL` of an Undefined exception, which G8 does not give (assumption log 4). -/
opaque Config.freeUndefinedIl : Config → PE → Bool

/-- FREE VALUE: `ESR_ELx.ISS` of an Undefined exception, which G8 does not give (assumption log 4). -/
opaque Config.freeUndefinedIss : Config → PE → BitVec 25

/-- FREE VALUE: `SecurityStateAtEL` where FEAT_RME is implemented and `SCR_EL3.{NSE, NS}` denotes no valid Security state,
a case G4 has no row for (assumption log 22). -/
opaque Config.freeSecurityState : Config → PE → SecurityState

/-- FREE VALUE: `VMID[]` where G4 says "VMID not used" (assumption log 22). -/
opaque Config.freeVmid : Config → PE → Vmid

/-- UNINTERPRETED HELPER `EL2Enabled()` (92_eei_decisions.md D2). -/
opaque Config.helperEl2Enabled : Config → PE → Bool

/-- UNINTERPRETED HELPER `IsHCRXEL2Enabled()` (92_eei_decisions.md D2). -/
opaque Config.helperIsHcrxEl2Enabled : Config → PE → Bool

/-- UNINTERPRETED HELPER `ELIsInHost(EL0)` (92_eei_decisions.md D2). -/
opaque Config.helperEl0IsInHost : Config → PE → Bool

/-- UNINTERPRETED HELPER `SecurityStateAtEL(el)` (92_eei_decisions.md D2). -/
opaque Config.helperSecurityStateAtEL : Config → EL → PE → SecurityState

/-- UNINTERPRETED HELPER `ValidSecurityStateAtEL(el)` (92_eei_decisions.md D2). -/
opaque Config.helperValidSecurityStateAtEL : Config → EL → PE → Bool

/-- UNINTERPRETED HELPER `VMID[]` (92_eei_decisions.md D2). -/
opaque Config.helperVmid : Config → PE → Vmid

end Sys2Proof
end

