-- ==== Sys2Proof/Machine/State.lean ====
section
/-! DEFINITION. The state of the system, the reasons a step can stop, and the state after reset. -/

namespace Sys2Proof.Machine

/-- Why the machine stops with a fault. -/
inductive Fault where
  /-- `raise Undefined`, carrying the instruction word: raised by either form on the causes of 60_exceptions.md rule R151
  where the configuration keeps the spec's decision D15. Safe: the model stops where the hardware enters a handler. -/
  | undefined (word : InstrWord)
  /-- `raise SystemAccessTrap(target, ec)`, carrying the instruction word: raised by either form on the causes of
  60_exceptions.md rule R154 where the configuration keeps D15. Safe, as above. -/
  | systemAccessTrap (target : EL) (ec : BitVec 6) (word : InstrWord)
  /-- An instruction fetch reads a byte of memory that nothing has written. Raised by the fetch. Safe. -/
  | fetchUnwritten (address : Nat)
  /-- An instruction word reaches past the last address of the 64-bit address space. Raised by the fetch. Safe. -/
  | fetchBeyondAddressSpace (address : Nat)
  deriving DecidableEq, Repr

/-- Why the model gives an instruction no meaning. -/
inductive Refusal where
  /-- An arm of `exec` has no meaning yet. Raised by `exec` only. Safe. -/
  | notModelled (mnemonic : String)
  /-- The word is not one of the two rows (30_encoding.md rule R89). Raised by the step after decoding. Safe. -/
  | notSpecifiedHere (word : InstrWord)
  /-- Reserved bits of the argument are not zero and `res0_policy` is `refuse` (30_encoding.md rule R77). Raised by either
  form on its issuing paths. Safe. -/
  | res0NotZero (argument : Word64)
  /-- `pc + 4` exceeds the address space and `pc_wrap` is `refuse` (10_state.md rule R22). Raised by either form where it
  would advance the pc. Safe. -/
  | pcPastTop (pc : Word64)
  deriving DecidableEq, Repr

/-- Memory: the bytes written, by rising address. An address that is not listed has no value (assumption log 8). -/
abbrev Memory := List Host.Cell

/-- The canonical form of a memory: the addresses rise strictly, so no address is listed twice. -/
abbrev Memory.wf (m : Memory) : Prop := m.Pairwise (fun a b => a.1 < b.1)

/-- The whole system. -/
structure State where
  /-- the configuration; no step changes it -/
  cfg : Config
  /-- the processing elements, by `PEId` (00_scope.md rule R7, `PEs`; 60_exceptions.md rule R169) -/
  pes : List PE
  /-- "the PE that executes this System instruction": the PE of the instruction being executed -/
  cur : PEId
  /-- `PendingTLBI`, oldest first (10_state.md rule R39) -/
  pending : List Pending
  /-- MODEL'S OWN: how many operations have been issued, the number of the next one (assumption log 12) -/
  issues : Nat
  /-- the memory instruction words are fetched from -/
  mem : Memory
  /-- MODEL'S OWN: the events already settled, next first (assumption log 7) -/
  agenda : List Event
  /-- MODEL'S OWN: how many events were drawn from the free value `Config.freeEvent` (assumption log 7) -/
  draws : Nat
  deriving DecidableEq, Repr

/-- The size of the translation granule as a power of two (10_state.md rule R36). -/
def Granule.log2Size : Granule → Nat
  | .g4KB => 12
  | .g16KB => 14
  | .g64KB => 16

/-- The translation table entry has a width the implementation has: 64 bits, or 128 bits with FEAT_D128 (10_state.md rule
R36, 20_memory.md rule R63). -/
def DescBits.implemented (cfg : Config) : DescBits → Bool
  | .bits64 => true
  | .bits128 => cfg.isFeatureImplemented .d128

/-- The form of a TLB entry (10_state.md rule R36): its table entry has a width there is, it translates at least the granule,
it is aligned to its size, and its VMID has the width of a VMID. -/
def TLBEntry.wf (cfg : Config) (e : TLBEntry) : Bool :=
  e.descBits.implemented cfg && 12 ≤ e.log2Size && e.granule.log2Size ≤ e.log2Size && e.vaBase.toNat % 2 ^ e.log2Size == 0 && e.vmid < 2 ^ cfg.vmidWidth

/-- An exception bank of zeros (assumption log 5). -/
def ExcBank.zero : ExcBank where
  esr := { ec := 0, il := false, iss := 0 }
  elr := 0
  spsr := { el := .el0, interruptsMasked := false }
  vbar := 0

/-- A PE whose registers hold the values named in assumption log 5, with the TLB and the accesses in flight given. -/
def PE.fresh (tlb : List TLBEntry) (inFlight : List Access) : PE where
  x := Vector.replicate 31 0
  pc := 0
  pstate := { el := .el3, interruptsMasked := true }
  hcrEL2 := { ttlb := false, ttlbos := false, e2h := false, tge := false }
  scrEL3 := { ns := false, nse := false, eel2 := false, fgten := false, hxen := false }
  hfgitrEL2 := { tlbivaale1os := false }
  hcrxEL2 := { fnxs := false, fgtnxs := false }
  vttbrEL2vmid := 0
  vtcrEL2vs := false
  excEL1 := ExcBank.zero
  excEL2 := ExcBank.zero
  excEL3 := ExcBank.zero
  tlb := tlb
  inFlight := inFlight
  started := inFlight.length

/-- Accesses in flight, numbered from `n` on, oldest first (assumption log 19). -/
def Access.numberFrom (n : Nat) : List Access → List Access
  | [] => []
  | a :: l => { a with serial := n } :: Access.numberFrom (n + 1) l

/-- A PE after reset: what its TLB and its accesses in flight hold is a free value (10_state.md rule R46,
70_reset_and_hazards.md rule R181), of which only the well-formed entries are kept. -/
def PE.reset (p : PEId) : PE :=
  PE.fresh ((Config.resetTlb p).filter (TLBEntry.wf Config.reset)).dedup
    (Access.numberFrom 0 ((Config.resetInFlight p).filter fun a => TLBEntry.wf Config.reset a.entry))

/-- The system right after reset: `PendingTLBI` is empty (10_state.md rule R46), memory lists nothing, and every value
the spec does not state is the one the assumption log names (entries 1, 5, 6, 7, 8). -/
def State.reset : State where
  cfg := Config.reset
  pes := [PE.reset 0, PE.reset 1]
  cur := 0
  pending := []
  issues := 0
  mem := []
  agenda := []
  draws := 0

end Sys2Proof.Machine
end

