-- ==== Sys2Proof/Machine/Helpers.lean ====
section
/-! DEFINITION. The helpers the pseudocode calls (10_state.md rule R33). Each is a total function of the configuration
and the executing PE: the reference definition of general knowledge G4, or an uninterpreted function
(92_eei_decisions.md D2), as the configuration says. -/

namespace Sys2Proof.Machine

/-- `IsSecureEL2Enabled()` (G4). -/
def isSecureEl2Enabled (cfg : Config) (pe : PE) : Bool :=
  cfg.haveEL .el2 && cfg.isFeatureImplemented .sel2 && (if cfg.haveEL .el3 then pe.scrEL3.eel2 else cfg.secureOnly)

/-- `EL2Enabled()`: "EL2 is implemented and enabled in the current Security state"; false whenever EL2 is not implemented
(10_state.md rule R33), whatever the source of the helpers. -/
def el2Enabled (cfg : Config) (pe : PE) : Bool :=
  match cfg.helpers with
  | .reference => cfg.haveEL .el2 && (!cfg.haveEL .el3 || pe.scrEL3.ns || isSecureEl2Enabled cfg pe)
  | .uninterpreted => cfg.haveEL .el2 && Config.helperEl2Enabled cfg pe

/-- `IsHCRXEL2Enabled()` (10_state.md rule R33, G4). -/
def isHcrxEl2Enabled (cfg : Config) (pe : PE) : Bool :=
  match cfg.helpers with
  | .reference => cfg.isFeatureImplemented .hcx && (!cfg.haveEL .el3 || pe.scrEL3.hxen) && el2Enabled cfg pe
  | .uninterpreted => Config.helperIsHcrxEl2Enabled cfg pe

/-- `ELIsInHost(EL0)` (10_state.md rule R33, 60_exceptions.md rule R168, G4). -/
def el0IsInHost (cfg : Config) (pe : PE) : Bool :=
  match cfg.helpers with
  | .reference =>
    cfg.isFeatureImplemented .vhe && cfg.el2UsingAArch64 && el2Enabled cfg pe && pe.hcrEL2.e2h && pe.hcrEL2.tge
  | .uninterpreted => Config.helperEl0IsInHost cfg pe

/-- `SecurityStateAtEL(el)`: indicated by `SCR_EL3.NS`, or by `SCR_EL3.{NSE, NS}` with FEAT_RME (10_state.md rules R27, R33,
G4). `{NSE, NS} = 0b10` denotes no valid Security state: the answer is then a free value (assumption log 22). -/
def securityStateAtEL (cfg : Config) (el : EL) (pe : PE) : SecurityState :=
  match cfg.helpers with
  | .reference =>
    if cfg.isFeatureImplemented .rme then
      if el = .el3 then .root
      else
        match pe.scrEL3.nse, pe.scrEL3.ns with
        | false, false => .secure
        | false, true => .nonSecure
        | true, true => .realm
        | true, false => Config.freeSecurityState cfg pe
    else if !cfg.haveEL .el3 then (if cfg.secureOnly then .secure else .nonSecure)
    else if el = .el3 then .secure
    else if pe.scrEL3.ns then .nonSecure
    else .secure
  | .uninterpreted => Config.helperSecurityStateAtEL cfg el pe

/-- `ValidSecurityStateAtEL(el)` (10_state.md rule R33, 60_exceptions.md rule R167, G4). -/
def validSecurityStateAtEL (cfg : Config) (el : EL) (pe : PE) : Bool :=
  match cfg.helpers with
  | .reference =>
    if !cfg.haveEL .el3 || el = .el3 then true
    else if cfg.isFeatureImplemented .rme && pe.scrEL3.nse && !pe.scrEL3.ns then false
    else if el = .el2 then el2Enabled cfg pe
    else true
  | .uninterpreted => Config.helperValidSecurityStateAtEL cfg el pe

/-- `VMID[]`, "the current VMID" of the executing PE, of width `VMID_WIDTH` (10_state.md rule R30, G4). -/
def currentVmid (cfg : Config) (pe : PE) : Vmid :=
  (match cfg.helpers with
   | .reference =>
     if el2Enabled cfg pe then
       if cfg.isFeatureImplemented .vmid16 && pe.vtcrEL2vs then pe.vttbrEL2vmid.toNat
       else (pe.vttbrEL2vmid.extractLsb' 0 8).toNat
     else if cfg.haveEL .el2 && cfg.isFeatureImplemented .sel2 then 0
     else Config.freeVmid cfg pe
   | .uninterpreted => Config.helperVmid cfg pe) % 2 ^ cfg.vmidWidth

end Sys2Proof.Machine
end

