-- ==== Sys2Proof/Machine/Flags.lean ====
section
/-! DEFINITION. The one-bit controls. Neither form reads or writes a condition flag (10_state.md rule R24), so there is no
flag computation; what decides a form's path are the control bits of four System registers, combined as the tables of
41_tlbi_vaale1os.md rule R132 and 42_tlbi_vaale1osnxs.md rule R142 name them. -/

namespace Sys2Proof.Machine

/-- `T1`: the coarse trap by `HCR_EL2.TTLB` (rule R132). -/
def trapTtlb (cfg : Config) (pe : PE) : Bool := el2Enabled cfg pe && pe.hcrEL2.ttlb

/-- `T2`: the coarse trap by `HCR_EL2.TTLBOS` (rule R132). -/
def trapTtlbos (cfg : Config) (pe : PE) : Bool := el2Enabled cfg pe && pe.hcrEL2.ttlbos

/-- `T3`: the fine-grained trap of the base form (rule R132). -/
def trapFine (cfg : Config) (pe : PE) : Bool :=
  el2Enabled cfg pe && cfg.isFeatureImplemented .fgt && (!cfg.haveEL .el3 || pe.scrEL3.fgten) && pe.hfgitrEL2.tlbivaale1os

/-- `T3x`: the fine-grained trap of the nXS form (rule R142). -/
def trapFineNxs (cfg : Config) (pe : PE) : Bool :=
  el2Enabled cfg pe && cfg.isFeatureImplemented .fgt && (!cfg.haveEL .el3 || pe.scrEL3.fgten) &&
    cfg.isFeatureImplemented .hcx && (!isHcrxEl2Enabled cfg pe || !pe.hcrxEL2.fgtnxs) && pe.hfgitrEL2.tlbivaale1os

/-- `F`: the base form behaves as the nXS form (rule R132). -/
def fnxsOverride (cfg : Config) (pe : PE) : Bool :=
  cfg.isFeatureImplemented .xs && cfg.isFeatureImplemented .hcx && isHcrxEl2Enabled cfg pe && pe.hcrxEL2.fnxs

/-- `V(el)`: the validity test that EL3 makes (rule R132). -/
def securityStateUsable (cfg : Config) (el : EL) (pe : PE) : Bool :=
  !cfg.isFeatureImplemented .rme || validSecurityStateAtEL cfg el pe

end Sys2Proof.Machine
end

