-- ==== Sys2Proof/Machine/Operands.lean ====
section
/-! DEFINITION. The 64-bit register argument: its fields, the decoding of TTL, and its reserved bits (30_encoding.md
section 2). -/

namespace Sys2Proof.Machine

/-- `res0_hi = Xt[63:48]` (30_encoding.md rule R76). -/
def res0Hi (xt : Word64) : BitVec 16 := xt.extractLsb' 48 16

/-- `ttl_raw = Xt[47:44]` (30_encoding.md rule R76). -/
def ttlRaw (xt : Word64) : BitVec 4 := xt.extractLsb' 44 4

/-- `va_field = Xt[43:0]`, which holds VA[55:12] (30_encoding.md rule R76). -/
def vaField (xt : Word64) : BitVec 44 := xt.extractLsb' 0 44

/-- `va = zext_64(va_field : 0b000000000000)` (30_encoding.md rule R76). Its bits [63:56] are zero by the spec's own representation
choice, which no matching rule reads. -/
def va (xt : Word64) : Word64 := (vaField xt ++ 0#12).setWidth 64

/-- `ttl`: the field as written, or 0b0000 where the TTL field is not implemented (30_encoding.md rules R76, R79). -/
def ttl (cfg : Config) (xt : Word64) : BitVec 4 := if cfg.ttlImplemented then ttlRaw xt else 0

/-- `DecodeTTL`: the granule and the level of a hint, or `none` for no information (30_encoding.md rules R80, R81). -/
def decodeTtl (cfg : Config) (ttl : BitVec 4) : Option (Granule × Int) :=
  match ttl.toNat with
  | 4 => if cfg.isFeatureImplemented .lpa2 then some (.g4KB, 0) else none
  | 5 => some (.g4KB, 1)
  | 6 => some (.g4KB, 2)
  | 7 => some (.g4KB, 3)
  | 9 => if cfg.isFeatureImplemented .lpa2 then some (.g16KB, 1) else none
  | 10 => some (.g16KB, 2)
  | 11 => some (.g16KB, 3)
  | 13 => some (.g64KB, 1)
  | 14 => some (.g64KB, 2)
  | 15 => some (.g64KB, 3)
  | _ => none

/-- Some RES0 bit of the argument is not zero: `Xt[63:48]` (rule R77), `TTL[1:0]` when `TTL[3:2]` is 0b00 (rule R81), and
`Xt[47:44]` where the TTL field is not implemented (rule R79). The low VA bits that a granule ignores are not among them
(rule R85). -/
def res0NonZero (cfg : Config) (xt : Word64) : Bool :=
  res0Hi xt != 0 ||
    (if cfg.ttlImplemented then (ttlRaw xt).extractLsb' 2 2 == 0 && (ttlRaw xt).extractLsb' 0 2 != 0 else ttlRaw xt != 0)

/-- `res0_policy` refuses this argument (30_encoding.md rule R77, 92_eei_decisions.md D11). -/
def res0Refused (cfg : Config) (xt : Word64) : Bool := cfg.res0Policy == .refuse && res0NonZero cfg xt

end Sys2Proof.Machine
end

