-- ==== Sys2Proof/Machine/Ops.lean ====
section
/-! DEFINITION. The named operations over the state: a PE of the system, the general registers, the pc, taking an
exception, and issuing an invalidation. -/

namespace Sys2Proof.Machine

/-- PE `p`. Outside `PEs` there is none, and the answer is a PE that holds nothing. -/
def State.pe (s : State) (p : PEId) : PE := s.pes.getD p (PE.fresh [] [])

/-- Replace PE `p`, if there is one. -/
def State.setPe (s : State) (p : PEId) (v : PE) : State := { s with pes := s.pes.set p v }

/-- The PE that executes. -/
def State.me (s : State) : PE := s.pe s.cur

/-- The system with PE `p` as the one that executes. -/
def State.executing (s : State) (p : PEId) : State := { s with cur := p }

/-- Replace `PendingTLBI`. -/
def State.setPending (s : State) (ps : List Pending) : State := { s with pending := ps }

/-- Replace the pc of a PE. -/
def PE.setPc (pe : PE) (v : Word64) : PE := { pe with pc := v }

/-- Replace `TLB(pe)`. -/
def PE.setTlb (pe : PE) (tlb : List TLBEntry) : PE := { pe with tlb := tlb }

/-- Replace `InFlight(pe)`. -/
def PE.setInFlight (pe : PE) (inFlight : List Access) : PE := { pe with inFlight := inFlight }

/-- An access of the PE is in flight, under the next number (10_state.md rule R38; assumption log 19). -/
def PE.addAccess (pe : PE) (e : TLBEntry) (xs : Bool) : PE :=
  { pe with inFlight := pe.inFlight ++ [{ entry := e, xs := xs, serial := pe.started }], started := pe.started + 1 }

/-- `X[t]`: the general register `t`, and zero for `t = 31` (10_state.md rules R20, R21). -/
def PE.readX (pe : PE) (t : Nat) : Word64 := if h : t < 31 then pe.x[t] else 0

/-- `pc <- v` on the PE that executes. -/
def State.setPc (s : State) (v : Word64) : State := s.setPe s.cur (s.me.setPc v)

/-- The instruction ends and the pc advances: `pc <- pc + 4` (10_state.md rule R22). Where `pc + 4` exceeds the address
space, the open parameter `pc_wrap` decides (92_eei_decisions.md D3). -/
def advancePc (s : State) : Host.Outcome State Fault Refusal :=
  if s.me.pc.toNat + 4 < 2 ^ 64 then .next (s.setPc (s.me.pc + 4))
  else
    match s.cfg.pcWrap with
    | .free => .next (s.setPc (Config.freePcAfterTop s.cfg s.me))
    | .wrap => .next (s.setPc (s.me.pc + 4))
    | .refuse => .refused (.pcPastTop s.me.pc)

/-- The bank an exception taken to an Exception level saves into; no exception is taken to EL0. -/
def PE.excBank (pe : PE) : EL → ExcBank
  | .el0 => pe.excEL1
  | .el1 => pe.excEL1
  | .el2 => pe.excEL2
  | .el3 => pe.excEL3

/-- Replace the bank of an Exception level. -/
def PE.setExcBank (pe : PE) (el : EL) (b : ExcBank) : PE :=
  match el with
  | .el0 => { pe with excEL1 := b }
  | .el1 => { pe with excEL1 := b }
  | .el2 => { pe with excEL2 := b }
  | .el3 => { pe with excEL3 := b }

/-- The vector offset: 0x400 for a synchronous exception from a lower Exception level using AArch64 (G7). The offset for
an exception taken to the current level is not given: a free value (assumption log 4). -/
def vectorOffset (cfg : Config) (target : EL) (pe : PE) : Word64 :=
  if target = pe.pstate.el then Config.freeSameElOffset cfg pe else 0x400#64

/-- What an exception taken to `target` makes of the PE (G7): the syndrome, the return address (the instruction's own
address) and `PSTATE` are saved, `PSTATE.EL` becomes the target, interrupts are masked, and control goes to the vector. The sum
of the vector base and the offset is taken modulo 2 to the 64; the spec does not say what it is past the top of the address space
(assumption log 3: DESIGN CHOICE). -/
def PE.enterException (cfg : Config) (target : EL) (syndrome : Syndrome) (pe : PE) : PE :=
  { pe.setExcBank target { pe.excBank target with esr := syndrome, elr := pe.pc, spsr := pe.pstate } with
    pstate := { el := target, interruptsMasked := true }
    pc := (pe.excBank target).vbar + vectorOffset cfg target pe }

/-- TAKING AN EXCEPTION on the PE that executes. -/
def takeException (target : EL) (syndrome : Syndrome) (s : State) : State :=
  s.setPe s.cur (s.me.enterException s.cfg target syndrome)

/-- The Exception level an Undefined exception is taken to (G8): EL1 from EL0, or EL2 from EL0 where `HCR_EL2.TGE` is 1 and
EL2 is enabled; else the current level. -/
def undefinedTarget (cfg : Config) (pe : PE) : EL :=
  if pe.pstate.el = .el0 then (if pe.hcrEL2.tge && el2Enabled cfg pe then .el2 else .el1) else pe.pstate.el

/-- The syndrome of an Undefined exception: class 0x00 (G8); IL and the ISS are free values (assumption log 4). -/
def undefinedSyndrome (cfg : Config) (pe : PE) : Syndrome where
  ec := 0x00
  il := Config.freeUndefinedIl cfg pe
  iss := Config.freeUndefinedIss cfg pe

/-- The ISS of a trapped System instruction: `op0[21:20] op2[19:17] op1[16:14] CRn[13:10] Rt[9:5] CRm[4:1] Direction[0]`,
direction 0 (G7). G7 gives bits [21:0] only: the three bits above them are zero here (assumption log 3: PRESUMED, the
family's). -/
def trapIss (w : InstrWord) : BitVec 25 :=
  let f := fieldsOf w
  0#3 ++ f.op0 ++ f.op2 ++ f.op1 ++ f.crn ++ f.rt ++ f.crm ++ 0#1

/-- The syndrome of a trapped System instruction of exception class `ec` (G7). -/
def trapSyndrome (ec : BitVec 6) (w : InstrWord) : Syndrome where
  ec := ec
  il := true
  iss := trapIss w

/-- `raise Undefined` (60_exceptions.md rule R150): the fault outcome of D15, or the entry of G8, as the configuration says.
The instruction has no effect before it (rule R161). -/
def raiseUndefined (i : Instr) (s : State) : Host.Outcome State Fault Refusal :=
  match s.cfg.exceptions with
  | .faultOutcome => .fault (.undefined (encode i))
  | .enterHandler => .next (takeException (undefinedTarget s.cfg s.me) (undefinedSyndrome s.cfg s.me) s)

/-- `raise SystemAccessTrap(target, ec)` (60_exceptions.md rule R153): the fault outcome of D15, or the entry of G7. -/
def raiseSystemAccessTrap (target : EL) (ec : BitVec 6) (i : Instr) (s : State) : Host.Outcome State Fault Refusal :=
  match s.cfg.exceptions with
  | .faultOutcome => .fault (.systemAccessTrap target ec (encode i))
  | .enterHandler => .next (takeException target (trapSyndrome ec (encode i)) s)

/-- `OSH(p)`: the PEs of the system in the same Outer Shareable domain as `p`, with `p` itself (00_scope.md rule R7,
92_eei_decisions.md D25). -/
def State.osh (s : State) (p : PEId) : List PEId :=
  (List.range s.pes.length).filter fun q => q == p || s.cfg.osh.contains (p, q)

/-- `Domain(op)` (40_invalidation_operation.md rule R112). -/
def State.domain (s : State) (op : TlbiOp) : List PEId := s.osh op.issuer

/-- The operation the executing PE issues with these arguments of the call (40_invalidation_operation.md rule R100): the
shareability and the level are the only ones these instructions pass, `el2_enabled` and `eel2` are captured at issue. Where
EL3 is not implemented `eel2` is the stored bit all the same (assumption log 37: DESIGN CHOICE). -/
def State.newOp (s : State) (security : SecurityState) (regime : Regime) (vmid : VmidArg) (attr : TlbiAttr)
    (xt : Word64) : TlbiOp where
  issuer := s.cur
  security := security
  regime := regime
  vmid := vmid
  shareability := .osh
  level := .last
  attr := attr
  xt := xt
  el2Enabled := el2Enabled s.cfg s.me
  eel2 := s.me.scrEL3.eel2

/-- A new record of `PendingTLBI`: performed nowhere in its domain yet (40_invalidation_operation.md rule R100). -/
def State.newPending (s : State) (op : TlbiOp) : Pending where
  serial := s.issues
  op := op
  progress := (s.domain op).map fun q => { pe := q, performed := false, required := [], before := 0 }

/-- A record is added to `PendingTLBI`, under the next number. -/
def State.addPending (s : State) (op : TlbiOp) : State :=
  { s with pending := s.pending ++ [s.newPending op], issues := s.issues + 1 }

/-- `issue TLBI_VAA(security, regime, vmid, OSH, Last, attr, X[t]); pc <- pc + 4` (40_invalidation_operation.md rule R100):
`X[t]` is read here only, so `res0_policy` acts here only (30_encoding.md rule R77). -/
def issueTlbiVaa (security : SecurityState) (regime : Regime) (vmid : VmidArg) (attr : TlbiAttr) (t : Nat) (s : State) :
    Host.Outcome State Fault Refusal :=
  if res0Refused s.cfg (s.me.readX t) then .refused (.res0NotZero (s.me.readX t))
  else advancePc (s.addPending (s.newOp security regime vmid attr (s.me.readX t)))

end Sys2Proof.Machine
end

