-- ==== Sys2Proof/Machine/Match.lean ====
section
/-! DEFINITION. Which entries an invalidation must remove: the predicate `Required` and its conjuncts
(40_invalidation_operation.md section 2), and the set `Req` of one PE (section 3). -/

namespace Sys2Proof.Machine

/-- The entry counts as a stage 1 entry (10_state.md rule R36, 20_memory.md rule R59). -/
def Stage.countsAsStage1 (cfg : Config) : Stage → Bool
  | .stage1 => true
  | .combined => cfg.combinedCountsAsStage1
  | .other => false

/-- The entry regime that a target regime names. -/
def Regime.entryRegime : Regime → EntryRegime
  | .regimeEL10 => .regimeEL10
  | .regimeEL20 => .regimeEL20

/-- `TypeOK` (rule R102): a final-level stage 1 entry of 64 bits, or, with FEAT_D128 and `ttl[3:2] = 0b00` as written, of
128 bits. -/
def typeOK (cfg : Config) (op : TlbiOp) (e : TLBEntry) : Bool :=
  e.stage.countsAsStage1 cfg && e.finalLevel &&
    (match e.descBits with
     | .bits64 => true
     | .bits128 => cfg.isFeatureImplemented .d128 && (ttl cfg op.xt).extractLsb' 2 2 == 0)

/-- `RegimeOK` (rule R103). -/
def regimeOK (op : TlbiOp) (e : TLBEntry) : Bool := e.regime == op.regime.entryRegime && e.security == op.security

/-- `VmidOK` (rule R104). -/
def vmidOK (op : TlbiOp) (e : TLBEntry) : Bool :=
  match op.vmid with
  | .vmidNone => true
  | .vmid v => !op.el2Enabled || e.vmid == v

/-- `v[55:n]`, zero where the range is empty (rule R108). -/
def bits55Down (v : Word64) (n : Nat) : BitVec 56 := v.extractLsb' 0 56 >>> n

/-- `VaOK` (rule R108): `va[55:n] = va_base[55:n]` with `n = log2_size`. -/
def vaOK (op : TlbiOp) (e : TLBEntry) : Bool := bits55Down (va op.xt) e.log2Size == bits55Down e.vaBase e.log2Size

/-- `TtlOK` (rule R109): no level information, or the entry's granule and level are the hinted ones. -/
def ttlOK (cfg : Config) (op : TlbiOp) (e : TLBEntry) : Bool :=
  match decodeTtl cfg (ttl cfg op.xt) with
  | none => true
  | some (g, l) => e.granule == g && e.level == l

/-- `Required(op, e)` (rule R101). -/
def required (cfg : Config) (op : TlbiOp) (e : TLBEntry) : Bool :=
  typeOK cfg op e && regimeOK op e && vmidOK op e && vaOK op e && ttlOK cfg op e

/-- The Secure EL1&0 exception (rule R113, D14): nothing is required of a PE whose `SCR_EL3.EEL2` differs from the
issuer's at issue. Where EL3 is not implemented the stored bits are compared all the same (assumption log 37: DESIGN
CHOICE). -/
def eel2Excepted (op : TlbiOp) (pe : PE) : Bool :=
  op.regime == .regimeEL10 && op.security == .secure && pe.scrEL3.eel2 != op.eel2

/-- `Req(op, pe')` (rules R112, R113): the entries that must go from this PE's TLB. -/
def requiredOn (cfg : Config) (op : TlbiOp) (pe : PE) : List TLBEntry :=
  if eel2Excepted op pe then [] else pe.tlb.filter (required cfg op)

end Sys2Proof.Machine
end

