-- ==== Sys2Proof/Machine/Agents.lean ====
section
/-! DEFINITION. What happens beside the execution of instructions: the invalidation agent (40_invalidation_operation.md
section 4), the filling and the eviction of TLB entries (10_state.md rule R37), and memory accesses in flight (rule R38). -/

namespace Sys2Proof.Machine

/-- The record still waits for `Perform` on PE `p`. -/
def Pending.awaits (pd : Pending) (p : PEId) : Bool := pd.progress.any fun q => q.pe == p && !q.performed

/-- `performed(p) <- true`; the set that was required to go, and how many accesses `p` had started, are kept for completion
(rules R114, R116). -/
def Pending.markPerformed (pd : Pending) (p : PEId) (req : List TLBEntry) (before : Nat) : Pending :=
  { pd with progress := pd.progress.map fun q =>
      if q.pe == p && !q.performed then { q with performed := true, required := req, before := before } else q }

/-- `TLB(p) \ S`, with `S` the required entries and whatever `extra` adds (rules R114, R115). -/
def tlbAfterPerform (cfg : Config) (op : TlbiOp) (extra : List TLBEntry) (pe : PE) : List TLBEntry :=
  pe.tlb.filter fun e => !((requiredOn cfg op pe).contains e || extra.contains e)

/-- `Perform(op, p)` (rule R114): `TLB(p)` loses what is required and maybe more, and the record is marked; not enabled unless
the record waits for `p`. -/
def perform (index : Nat) (p : PEId) (extra : List TLBEntry) (s : State) : State :=
  match s.pending[index]? with
  | none => s
  | some pd =>
    if pd.awaits p then
      (s.setPe p ((s.pe p).setTlb (tlbAfterPerform s.cfg pd.op extra (s.pe p)))).setPending
        (s.pending.set index (pd.markPerformed p (requiredOn s.cfg pd.op (s.pe p)) (s.pe p).started))
    else s

/-- `Waits(attr, a)` (rule R117). -/
def waits (attr : TlbiAttr) (a : Access) : Bool :=
  match attr with
  | .allAttr => true
  | .excludeXS => !a.xs

/-- The access uses an entry that `Perform` was required to remove (rule R116). An access that started after `Perform`
cannot, even if it uses an equal entry that was loaded again (assumption log 19). -/
def Progress.removedEntryOf (q : Progress) (a : Access) : Bool := decide (a.serial < q.before) && q.required.contains a.entry

/-- `Complete(op)` (rule R116): performed on every PE of its domain, and no access it waits for still uses an entry that was
required to go. -/
def complete (s : State) (pd : Pending) : Bool :=
  pd.progress.all fun q =>
    q.performed && (s.pe q.pe).inFlight.all fun a => !(q.removedEntryOf a && waits pd.op.attr a)

/-- A complete record is dropped from `PendingTLBI` (rule R116). -/
def retire (index : Nat) (s : State) : State :=
  match s.pending[index]? with
  | none => s
  | some pd => if complete s pd then s.setPending (s.pending.eraseIdx index) else s

/-- An entry appears in `TLB(p)` (10_state.md rule R37 (a)); the set stays one without repeats. -/
def fill (p : PEId) (e : TLBEntry) (s : State) : State :=
  if e.wf s.cfg then s.setPe p ((s.pe p).setTlb ((s.pe p).tlb.insert e)) else s

/-- An entry disappears from `TLB(p)` (10_state.md rule R37 (b)). -/
def evict (p : PEId) (e : TLBEntry) (s : State) : State := s.setPe p ((s.pe p).setTlb ((s.pe p).tlb.erase e))

/-- A memory access of `p` starts, its translation using an entry that is in `TLB(p)` now (10_state.md rule R38). -/
def startAccess (p : PEId) (e : TLBEntry) (xs : Bool) (s : State) : State :=
  if (s.pe p).tlb.contains e then s.setPe p ((s.pe p).addAccess e xs) else s

/-- An access in flight completes (10_state.md rule R38). -/
def finishAccess (p : PEId) (index : Nat) (s : State) : State :=
  s.setPe p ((s.pe p).setInFlight ((s.pe p).inFlight.eraseIdx index))

end Sys2Proof.Machine
end

