-- ==== Sys2Proof/Machine/Tlbi.lean ====
section
/-! DEFINITION. The meanings of the two instructions: the decision trees of 41_tlbi_vaale1os.md rule R130 and
42_tlbi_vaale1osnxs.md rule R140. -/

namespace Sys2Proof.Machine

/-- The invalidation of the EL1&0 regime: `SecurityStateAtEL(EL1), Regime_EL10, VMID[]` (rules R130, R140). -/
def issueEl10 (attr : TlbiAttr) (t : Nat) (s : State) : Host.Outcome State Fault Refusal :=
  issueTlbiVaa (securityStateAtEL s.cfg .el1 s.me) .regimeEL10 (.vmid (currentVmid s.cfg s.me)) attr t s

/-- The invalidation of the EL2&0 regime: `SecurityStateAtEL(EL2), Regime_EL20, VMID_NONE` (rules R130, R140). -/
def issueEl20 (attr : TlbiAttr) (t : Nat) (s : State) : Host.Outcome State Fault Refusal :=
  issueTlbiVaa (securityStateAtEL s.cfg .el2 s.me) .regimeEL20 .vmidNone attr t s

/-- Execution at EL2, the same in both forms but for the attribute (rules R130, R140): the host's regime, or EL1&0. -/
def executeAtEl2 (attr : TlbiAttr) (t : Nat) (s : State) : Host.Outcome State Fault Refusal :=
  if el0IsInHost s.cfg s.me then issueEl20 attr t s else issueEl10 attr t s

/-- Execution at EL3, the same in both forms but for the attribute (rules R130, R140): as at EL2, but the source's
`return;` where FEAT_RME is implemented and the Security state of the target level is not valid. -/
def executeAtEl3 (attr : TlbiAttr) (t : Nat) (s : State) : Host.Outcome State Fault Refusal :=
  if el0IsInHost s.cfg s.me then
    if securityStateUsable s.cfg .el2 s.me then issueEl20 attr t s else advancePc s
  else
    if securityStateUsable s.cfg .el1 s.me then issueEl10 attr t s else advancePc s

/-- `TLBI VAALE1OS{, <Xt>}` (41_tlbi_vaale1os.md rules R130 to R133). -/
def execTlbiVaale1os (t : Nat) (s : State) : Host.Outcome State Fault Refusal :=
  if !s.cfg.isFeatureImplemented .tlbios then raiseUndefined (.tlbiVaale1os t) s
  else
    match s.me.pstate.el with
    | .el0 => raiseUndefined (.tlbiVaale1os t) s
    | .el1 =>
      if trapTtlb s.cfg s.me then raiseSystemAccessTrap .el2 0x18 (.tlbiVaale1os t) s
      else if trapTtlbos s.cfg s.me then raiseSystemAccessTrap .el2 0x18 (.tlbiVaale1os t) s
      else if trapFine s.cfg s.me then raiseSystemAccessTrap .el2 0x18 (.tlbiVaale1os t) s
      else if fnxsOverride s.cfg s.me then issueEl10 .excludeXS t s
      else issueEl10 .allAttr t s
    | .el2 => executeAtEl2 .allAttr t s
    | .el3 => executeAtEl3 .allAttr t s

/-- `TLBI VAALE1OSNXS{, <Xt>}` (42_tlbi_vaale1osnxs.md rules R140 to R143). -/
def execTlbiVaale1osnxs (t : Nat) (s : State) : Host.Outcome State Fault Refusal :=
  if !s.cfg.isFeatureImplemented .tlbios then raiseUndefined (.tlbiVaale1osnxs t) s
  else if !s.cfg.isFeatureImplemented .xs then raiseUndefined (.tlbiVaale1osnxs t) s
  else
    match s.me.pstate.el with
    | .el0 => raiseUndefined (.tlbiVaale1osnxs t) s
    | .el1 =>
      if trapTtlb s.cfg s.me then raiseSystemAccessTrap .el2 0x18 (.tlbiVaale1osnxs t) s
      else if trapTtlbos s.cfg s.me then raiseSystemAccessTrap .el2 0x18 (.tlbiVaale1osnxs t) s
      else if trapFineNxs s.cfg s.me then raiseSystemAccessTrap .el2 0x18 (.tlbiVaale1osnxs t) s
      else issueEl10 .excludeXS t s
    | .el2 => executeAtEl2 .excludeXS t s
    | .el3 => executeAtEl3 .excludeXS t s

end Sys2Proof.Machine
end

