-- ==== Sys2Proof/Machine/Dispatch.lean ====
section
/-! DEFINITION. One arm per constructor of Instr: the instruction's meaning. -/

namespace Sys2Proof.Machine

def exec (i : Instr) (s : State) : Host.Outcome State Fault Refusal :=
  match i with
  | .tlbiVaale1os t => Sys2Proof.Machine.execTlbiVaale1os t s
  | .tlbiVaale1osnxs t => Sys2Proof.Machine.execTlbiVaale1osnxs t s

end Sys2Proof.Machine
end

