-- ==== Sys2Proof/Machine/Fetch.lean ====
section
/-! DEFINITION. Fetching the instruction word, running one event, and placing an instruction where it is fetched next. -/

namespace Sys2Proof.Machine

/-- The byte of an instruction word at address `a`: it must lie in the 64-bit address space and have been written
(assumption logs 8, 9). -/
def fetchByte (m : Memory) (a : Nat) : Except Fault Byte :=
  if a < 2 ^ 64 then
    match m.readByte a with
    | some b => .ok b
    | none => .error (.fetchUnwritten a)
  else .error (.fetchBeyondAddressSpace a)

/-- The instruction word at address `a`: four bytes, the lowest address holding bits [7:0] (20_memory.md rule R54). -/
def fetchWord (m : Memory) (a : Nat) : Except Fault InstrWord := do
  let b0 ← fetchByte m a
  let b1 ← fetchByte m (a + 1)
  let b2 ← fetchByte m (a + 2)
  let b3 ← fetchByte m (a + 3)
  return wordOfBytes b0 b1 b2 b3

/-- The PE that executes fetches the word at its pc and executes it. A word that is not one of the two rows has no meaning
here (30_encoding.md rule R89). -/
def fetchAndExec (s : State) : Host.Outcome State Fault Refusal :=
  match fetchWord s.mem s.me.pc.toNat with
  | .error f => .fault f
  | .ok w =>
    match decodeWord w with
    | some i => exec i s
    | none => .refused (.notSpecifiedHere w)

/-- One event. A PE that is not in `PEs` executes nothing. -/
def runEvent (ev : Event) (s : State) : Host.Outcome State Fault Refusal :=
  match ev with
  | .execute p => if p < s.pes.length then fetchAndExec (s.executing p) else .next s
  | .perform index p extra => .next (perform index p extra s)
  | .fill p e => .next (fill p e s)
  | .evict p e => .next (evict p e s)
  | .startAccess p e xs => .next (startAccess p e xs s)
  | .finishAccess p index => .next (finishAccess p index s)
  | .retire index => .next (retire index s)

/-- The event whose turn it is: the head of the agenda, or, when the agenda is empty, a free one (assumption log 7). -/
def State.nextEvent (s : State) : Event :=
  match s.agenda with
  | [] => Config.freeEvent s.draws
  | ev :: _ => ev

/-- The state once that event is taken off. -/
def State.afterDraw (s : State) : State :=
  match s.agenda with
  | [] => { s with draws := s.draws + 1 }
  | _ :: rest => { s with agenda := rest }

/-- Bytes are placed at the pc of the PE that executes, and its turn comes next: a program loaded from outside
(assumption log 7). -/
def placeAtPc (s : State) (bs : List Byte) : State :=
  { s with mem := s.mem.writeBytes s.me.pc.toNat bs, agenda := .execute s.cur :: s.agenda }

end Sys2Proof.Machine
end

