-- ==== Sys2Proof/Machine/Step.lean ====
section
/-! DEFINITION. One step of the system: the next event happens. -/

namespace Sys2Proof.Machine

/-- One step: the event whose turn it is happens (assumption log 7). -/
def step (s : State) : Host.Outcome State Fault Refusal := runEvent s.nextEvent s.afterDraw

/-- `s` with an opcode-table word, its bits above `nbits` zero, stored where the next step fetches its instruction. -/
def State.withFetchWord (s : State) (nbits w : Nat) : State :=
  placeAtPc s (bytesOfWord (BitVec.ofNat 32 (w % 2 ^ nbits)))

end Sys2Proof.Machine
end

