-- ==== Sys2Proof/Safety.lean ====
section
/-! DEFINITION. What claims speak of: the invariant of the system, and the terms in which an execution of an instruction is
said to go on or to stop. -/

namespace Sys2Proof.Machine

/-- A PE as the spec gives it: its TLB is a set (10_state.md rule R35) of well-formed entries (rule R36), its accesses in
flight are a set (rule R38) of accesses with such entries, told apart by numbers already given, and its Exception level is an
implemented one (rule R23). -/
abbrev PE.wf (cfg : Config) (pe : PE) : Prop :=
  pe.tlb.Nodup ∧ (∀ e ∈ pe.tlb, e.wf cfg = true) ∧ pe.inFlight.Pairwise (fun a b => a.serial < b.serial) ∧
    (∀ a ∈ pe.inFlight, a.entry.wf cfg = true ∧ a.serial < pe.started) ∧ cfg.haveEL pe.pstate.el = true

/-- The third argument is a VMID of the width of a VMID, or none (10_state.md rule R30). -/
def VmidArg.fits (cfg : Config) : VmidArg → Bool
  | .vmid v => v < 2 ^ cfg.vmidWidth
  | .vmidNone => true

/-- The arguments of an issued operation pair up as the two instructions pass them (40_invalidation_operation.md rules R100,
R117): a VMID of the width of a VMID with `Regime_EL10`, none with `Regime_EL20`, and `TLBI_ExcludeXS` only with FEAT_XS. -/
abbrev TlbiOp.wf (cfg : Config) (op : TlbiOp) : Prop :=
  (op.regime = .regimeEL20 ↔ op.vmid = .vmidNone) ∧ op.vmid.fits cfg = true ∧
    (op.attr = .excludeXS → cfg.isFeatureImplemented .xs = true)

/-- A record of `PendingTLBI` as the spec gives it: issued under a number already given by a PE of the system, with one flag
for each PE of its domain (rule R39), and a set of required entries and a count of started accesses only where it has been
performed (rules R114, R116). -/
abbrev Pending.wf (s : State) (pd : Pending) : Prop :=
  pd.serial < s.issues ∧ pd.op.issuer < s.pes.length ∧ pd.op.wf s.cfg ∧ pd.progress.map Progress.pe = s.domain pd.op ∧
    (∀ q ∈ pd.progress, (∀ e ∈ q.required, required s.cfg pd.op e = true) ∧ q.before ≤ (s.pe q.pe).started ∧
      (q.performed = false → q.required = [] ∧ q.before = 0))

/-- THE INVARIANT: memory is in its canonical form, the executing PE is one of the system's, every PE and every pending record
is as the spec gives it, and the pending records are told apart by their numbers. -/
abbrev State.Inv (s : State) : Prop :=
  s.mem.wf ∧ s.cur < s.pes.length ∧ (∀ pe ∈ s.pes, pe.wf s.cfg) ∧ (∀ pd ∈ s.pending, pd.wf s) ∧
    s.pending.Pairwise (fun a b => a.serial < b.serial)

/-- The two states agree on everything of a PE but its TLB and its accesses in flight: the registers, the pc, `PSTATE`, the
System registers and the exception registers. -/
abbrev PE.SameRegisters (a b : PE) : Prop :=
  { a with tlb := b.tlb, inFlight := b.inFlight, started := b.started } = b

/-- The argument is one the configuration gives the instruction a meaning for: `res0_policy` does not refuse it. -/
abbrev State.ArgumentAccepted (s : State) (t : Nat) : Prop := res0Refused s.cfg (s.me.readX t) = false

/-- `pc + 4` lies in the address space on the PE that executes (10_state.md rule R22). -/
abbrev State.PcBelowTop (s : State) : Prop := s.me.pc.toNat + 4 < 2 ^ 64

/-- The state after the executing PE has issued an operation with these arguments and its pc has advanced by 4
(40_invalidation_operation.md rule R100, 10_state.md rules R22, R40). -/
def State.issued (s : State) (security : SecurityState) (regime : Regime) (vmid : VmidArg) (attr : TlbiAttr)
    (xt : Word64) : State :=
  { s with
    pending := s.pending ++ [s.newPending (s.newOp security regime vmid attr xt)]
    issues := s.issues + 1
    pes := s.pes.set s.cur { s.me with pc := s.me.pc + 4 } }

/-! ### Where an instruction ends

The rows of the decision tables (41_tlbi_vaale1os.md rule R132, 42_tlbi_vaale1osnxs.md rule R142) by their outcome. -/

/-- The nXS form. -/
def nxsForm : Instr → Bool
  | .tlbiVaale1os _ => false
  | .tlbiVaale1osnxs _ => true

/-- The instruction raises Undefined (60_exceptions.md rule R151). -/
abbrev State.UndefinedCause (s : State) (i : Instr) : Prop :=
  s.cfg.featTlbios = false ∨ (nxsForm i = true ∧ s.cfg.featXs = false) ∨ s.me.pstate.el = .el0

/-- The instruction raises the trap to EL2 (60_exceptions.md rules R154, R158). -/
abbrev State.TrapCause (s : State) (i : Instr) : Prop :=
  ¬ s.UndefinedCause i ∧ s.me.pstate.el = .el1 ∧
    (trapTtlb s.cfg s.me = true ∨ trapTtlbos s.cfg s.me = true ∨
      (if nxsForm i then trapFineNxs s.cfg s.me else trapFine s.cfg s.me) = true)

/-- The instruction targets the EL2&0 regime: it runs at EL2 or EL3 and EL0 is in a host. -/
abbrev State.TargetsHost (s : State) : Prop := s.me.pstate.el ≠ .el1 ∧ el0IsInHost s.cfg s.me = true

/-- The instruction returns with no effect but on the pc: at EL3 the Security state of the target level is not usable. -/
abbrev State.ReturnsSilently (s : State) : Prop :=
  s.me.pstate.el = .el3 ∧ securityStateUsable s.cfg (if s.TargetsHost then .el2 else .el1) s.me = false

/-- The instruction issues an invalidation. -/
abbrev State.Issues (s : State) (i : Instr) : Prop := ¬ s.UndefinedCause i ∧ ¬ s.TrapCause i ∧ ¬ s.ReturnsSilently

/-- The attribute it passes: `TLBI_ExcludeXS` for the nXS form, and at EL1 under the FnXS override. -/
def State.callAttr (s : State) (i : Instr) : TlbiAttr :=
  if nxsForm i || (decide (s.me.pstate.el = .el1) && fnxsOverride s.cfg s.me) then .excludeXS else .allAttr

/-- The call it makes, with all its arguments (40_invalidation_operation.md rule R100). -/
def State.callOf (s : State) (i : Instr) : TlbiOp :=
  if s.TargetsHost then s.newOp (securityStateAtEL s.cfg .el2 s.me) .regimeEL20 .vmidNone (s.callAttr i) (s.me.readX i.rt)
  else s.newOp (securityStateAtEL s.cfg .el1 s.me) .regimeEL10 (.vmid (currentVmid s.cfg s.me)) (s.callAttr i) (s.me.readX i.rt)

/-! ### Runs and fairness -/

/-- The PEs named answer `Perform` of the same pending record one after the other. -/
def performAll (index : Nat) (ps : List PEId) : List Event := ps.map fun p => .perform index p []

/-- The state with an event put first. -/
def State.scheduled (s : State) (ev : Event) : State := { s with agenda := ev :: s.agenda }

/-- `r` is the run of the system under a schedule that settles every event. -/
def IsRun (schedule : Nat → Event) (r : Nat → State) : Prop := ∀ n, step ((r n).scheduled (schedule n)) = .next (r (n + 1))

/-- `Perform` of the pending record of this number on PE `p` is enabled (40_invalidation_operation.md rule R114). -/
def State.PerformEnabled (s : State) (serial : Nat) (p : PEId) : Prop :=
  ∃ pd ∈ s.pending, pd.serial = serial ∧ pd.awaits p = true

/-- The event takes that step. -/
def State.TakesPerform (s : State) (ev : Event) (serial : Nat) (p : PEId) : Prop :=
  ∃ index extra pd, ev = .perform index p extra ∧ s.pending[index]? = some pd ∧ pd.serial = serial ∧ pd.awaits p = true

/-- FAIRNESS, the assumption of 40_invalidation_operation.md rule R114 and 70_reset_and_hazards.md rule R192: every enabled
`Perform` step is eventually taken. -/
def Fair (schedule : Nat → Event) (r : Nat → State) : Prop :=
  ∀ n serial p, (r n).PerformEnabled serial p → ∃ m, n ≤ m ∧ (r m).TakesPerform (schedule m) serial p

end Sys2Proof.Machine
end

