-- ==== Sys2Proof/Certificates/Slice0/Obligations.lean ====
section
/-! DEFINITION. The statements for the provers. Where a statement rests on a decision or an inference of the spec, or on
what the assumption log marks DESIGN CHOICE, PRESUMED or DEDUCED, its docstring says so and OBLIGATIONS.json gives it the
basis 'derived'. -/

open Sys2Proof Sys2Proof.Machine

/-! ### Encoding -/

/-- The words of the two forms are `0xD50881E0 | t` and `0xD50891E0 | t` (30_encoding.md section 1; the positions of the
fields are general knowledge G2, log 20). -/
def Obligations.EncodedWordsAreTheTableWords : Prop :=
  ∀ t : Nat, t ≤ 31 →
    encode (.tlbiVaale1os t) = 0xD50881E0#32 ||| BitVec.ofNat 32 t ∧
      encode (.tlbiVaale1osnxs t) = 0xD50891E0#32 ||| BitVec.ofNat 32 t

/-- Words written out from the encoding rows decode to their instructions, and neighbouring words to nothing
(95_test_vectors.md V1). -/
def Obligations.WordsWrittenOutDecode : Prop :=
  decodeWord 0b11010101000010001000000111100011#32 = some (.tlbiVaale1os 3) ∧
    decodeWord 0b11010101000010001000000111111111#32 = some (.tlbiVaale1os 31) ∧
    decodeWord 0b11010101000010001001000111110001#32 = some (.tlbiVaale1osnxs 17) ∧
    decodeWord 0b11010101000010001010000111100000#32 = none ∧
    decodeWord 0b11010101001010001000000111100000#32 = none

/-- Decoding the bytes of a well-formed instruction's word gives the instruction back, and leaves the bytes after it. -/
def Obligations.DecodeOfEncodeIsTheInstruction : Prop :=
  ∀ (i : Instr) (rest : List Byte), WellFormed i = true →
    decodeBytes (bytesOfWord (encode i) ++ rest) = .instr i rest

/-- Every word has at most one meaning: a word that decodes is the word of what it decodes to, which is well formed. -/
def Obligations.EncodeOfDecodeIsTheWord : Prop :=
  ∀ (w : InstrWord) (i : Instr), decodeWord w = some i → WellFormed i = true ∧ encode i = w

/-- Every word whose fields are not those of the two rows is reported as not specified here, never as Undefined and never as a
no-op (30_encoding.md section 3). Which words those are is told by the masks of section 1, whose layout is general knowledge G2
(log 20: PRESUMED). -/
def Obligations.OtherWordsAreNotSpecifiedHere : Prop :=
  ∀ (s : State) (w : InstrWord),
    fetchWord s.mem s.me.pc.toNat = .ok w →
    w &&& 0xFFFFFFE0#32 ≠ 0xD50881E0#32 → w &&& 0xFFFFFFE0#32 ≠ 0xD50891E0#32 →
    fetchAndExec s = .refused (.notSpecifiedHere w)

/-! ### The step and the fetch -/

/-- When it is PE `p`'s turn and the four bytes at its pc, lowest address first, are those of a word that decodes to `i`, the
step is `exec i` at the state with that event taken off and `p` as the executing PE. The pc is 10_state.md section 1's, the byte
order 20_memory.md section 2's (decision D4); that a step is an event whose turn comes, which is then taken off, is the model's
choice (log 7). -/
def Obligations.StepRunsTheDecodedInstruction : Prop :=
  ∀ (s : State) (p : PEId) (b0 b1 b2 b3 : Byte) (i : Instr),
    s.nextEvent = .execute p → p < s.pes.length → (s.pe p).pc.toNat + 3 < 2 ^ 64 →
    s.mem.readByte (s.pe p).pc.toNat = some b0 → s.mem.readByte ((s.pe p).pc.toNat + 1) = some b1 →
    s.mem.readByte ((s.pe p).pc.toNat + 2) = some b2 → s.mem.readByte ((s.pe p).pc.toNat + 3) = some b3 →
    decodeBytes [b0, b1, b2, b3] = .instr i [] →
    step s = exec i (s.afterDraw.executing p)

/-- A fetch that meets a byte nothing has written, at the first, second, third or fourth address of the word, stops with the fault
that names that address (log 8: the model's choice). -/
def Obligations.FetchOfAnUnwrittenByteFaults : Prop :=
  ∀ (s : State) (p : PEId) (k : Nat),
    s.nextEvent = .execute p → p < s.pes.length → k < 4 → (s.pe p).pc.toNat + k < 2 ^ 64 →
    (∀ j, j < k → ∃ b, s.mem.readByte ((s.pe p).pc.toNat + j) = some b) →
    s.mem.readByte ((s.pe p).pc.toNat + k) = none →
    step s = .fault (.fetchUnwritten ((s.pe p).pc.toNat + k))

/-- An instruction placed at the pc is the one the next step runs, whatever the memory held (log 7: how a program comes to
run). -/
def Obligations.PlacedInstructionRunsNext : Prop :=
  ∀ (s : State) (i : Instr),
    WellFormed i = true → s.cur < s.pes.length → s.me.pc.toNat + 3 < 2 ^ 64 →
    step (s.withFetchWord 32 (encode i).toNat) =
      exec i { s with mem := s.mem.writeBytes s.me.pc.toNat (bytesOfWord (encode i)) }

/-! ### The register argument -/

/-- The register file: register 31 reads as zero, the others read their own storage (10_state.md section 1; general knowledge
G3, log 23). -/
def Obligations.RegisterThirtyOneReadsZero : Prop :=
  ∀ pe : PE, pe.readX 31 = 0 ∧ ∀ (t : Nat) (h : t < 31), pe.readX t = pe.x[t]

/-- The fields of the argument, as numbers (30_encoding.md section 2). That `ttl` is zero where the TTL field is not implemented is
the spec's decision D10 (log 24: DESIGN CHOICE). That bits [63:56] of `va` are zero is what the spec calls "a representation choice
of this spec, not a claim that the hardware takes the top bits of the address as zero". -/
def Obligations.ArgumentFieldsAreSlices : Prop :=
  ∀ (cfg : Config) (xt : Word64),
    (res0Hi xt).toNat = xt.toNat / 2 ^ 48 ∧
      (ttlRaw xt).toNat = xt.toNat / 2 ^ 44 % 16 ∧
      (vaField xt).toNat = xt.toNat % 2 ^ 44 ∧
      (va xt).toNat = xt.toNat % 2 ^ 44 * 2 ^ 12 ∧
      (ttl cfg xt).toNat = if cfg.ttlImplemented then xt.toNat / 2 ^ 44 % 16 else 0

/-- R80: the table of TTL, one row per value. -/
def Obligations.TtlTable : Prop :=
  ∀ cfg : Config,
    (List.range 16).map (fun v => decodeTtl cfg (BitVec.ofNat 4 v)) =
      [none, none, none, none,
        if cfg.featLpa2 then some (.g4KB, 0) else none, some (.g4KB, 1), some (.g4KB, 2), some (.g4KB, 3),
        none, if cfg.featLpa2 then some (.g16KB, 1) else none, some (.g16KB, 2), some (.g16KB, 3),
        none, some (.g64KB, 1), some (.g64KB, 2), some (.g64KB, 3)]

/-- By the granule of the entry, all bits of the VA field are used, or its bits [1:0] are ignored, or its bits [3:0] are.
(30_encoding.md section 2. That the
granule is the entry's is the spec's decision D23, and that bits [55:n] are what is compared is D12.) -/
def Obligations.LowVaBitsAreIgnoredByGranule : Prop :=
  ∀ (cfg : Config) (op : TlbiOp) (e : TLBEntry) (xt : Word64), e.wf cfg = true →
    (e.granule = .g4KB → e.log2Size = 12 →
      (vaOK op e = true ↔ vaField op.xt = e.vaBase.extractLsb' 12 44)) ∧
    (e.granule = .g16KB → xt.extractLsb' 2 62 = op.xt.extractLsb' 2 62 →
      required cfg { op with xt := xt } e = required cfg op e) ∧
    (e.granule = .g64KB → xt.extractLsb' 4 60 = op.xt.extractLsb' 4 60 →
      required cfg { op with xt := xt } e = required cfg op e)

/-- `res0_policy` (30_encoding.md section 2, decision D11, log 11), wherever a form issues. Under `refuse` it refuses by name an
argument with a non-zero RES0 bit. Under `ignore` every argument is accepted and none is refused, and the reserved bits have no
say: two arguments of one VA field and of one TTL, or both with `TTL[3:2] = 0b00`, or both without the TTL field, require the
same entries to go. -/
def Obligations.ReservedArgumentBitsFollowThePolicy : Prop :=
  (∀ (i : Instr) (s : State), s.Issues i → s.cfg.res0Policy = .refuse → res0NonZero s.cfg (s.me.readX i.rt) = true →
      exec i s = .refused (.res0NotZero (s.me.readX i.rt))) ∧
    (∀ (i : Instr) (s : State), s.cfg.res0Policy = .ignore →
      s.ArgumentAccepted i.rt ∧ ∀ x : Word64, exec i s ≠ .refused (.res0NotZero x)) ∧
    ∀ (cfg : Config) (op : TlbiOp) (e : TLBEntry) (xt : Word64), vaField xt = vaField op.xt →
      (cfg.ttlImplemented = true → ttlRaw xt = ttlRaw op.xt ∨ ((ttlRaw xt).toNat < 4 ∧ (ttlRaw op.xt).toNat < 4)) →
      required cfg { op with xt := xt } e = required cfg op e

/-! ### Which entries must go -/

/-- `Required` spelled out (40_invalidation_operation.md section 2; decisions D8, D9, D12, D13): stage, final level, width of
the entry, regime, Security state, VMID, the region that holds the VA, and the hint. -/
def Obligations.RequiredSpelledOut : Prop :=
  ∀ (cfg : Config) (op : TlbiOp) (e : TLBEntry),
    required cfg op e = true ↔
      (e.stage = .stage1 ∨ (e.stage = .combined ∧ cfg.combinedCountsAsStage1 = true)) ∧
        e.finalLevel = true ∧
        (e.descBits = .bits64 ∨
          (cfg.featD128 = true ∧ (cfg.ttlImplemented = true → op.xt.toNat / 2 ^ 46 % 4 = 0))) ∧
        ((op.regime = .regimeEL10 ∧ e.regime = .regimeEL10) ∨ (op.regime = .regimeEL20 ∧ e.regime = .regimeEL20)) ∧
        e.security = op.security ∧
        (op.el2Enabled = true → ∀ v, op.vmid = .vmid v → e.vmid = v) ∧
        op.xt.toNat % 2 ^ 44 * 2 ^ 12 / 2 ^ e.log2Size = e.vaBase.toNat % 2 ^ 56 / 2 ^ e.log2Size ∧
        ∀ g l, decodeTtl cfg (ttl cfg op.xt) = some (g, l) → e.granule = g ∧ e.level = l

/-- R105: neither the ASID nor the global bit of an entry imposes a condition. -/
def Obligations.AsidAndGlobalAreNotCompared : Prop :=
  ∀ (cfg : Config) (op : TlbiOp) (e : TLBEntry) (asid : Nat) (global : Bool),
    required cfg op { e with asid := asid, global := global } = required cfg op e

/-- Only entries of the operation's regime and Security state are required to go
(40_invalidation_operation.md section 2). -/
def Obligations.OtherRegimesAndSecurityStatesAreNotRequired : Prop :=
  ∀ (cfg : Config) (op : TlbiOp) (e : TLBEntry), required cfg op e = true →
    e.regime = op.regime.entryRegime ∧ e.security = op.security ∧ e.regime ≠ .otherRegime

/-- An AArch32 regime (30_encoding.md section 2, decision D19): an entry that lies in a 32-bit VA space is not required to go
when the argument has a bit of VA[55:32] set. -/
def Obligations.HighVaBitsMatchNoThirtyTwoBitEntry : Prop :=
  ∀ (cfg : Config) (op : TlbiOp) (e : TLBEntry),
    e.vaBase.toNat < 2 ^ 32 → e.log2Size ≤ 32 → 2 ^ 20 ≤ op.xt.toNat % 2 ^ 44 → required cfg op e = false

/-! ### The decision trees -/

/-- The decision table of TLBI VAALE1OS (41_tlbi_vaale1os.md), first matching row wins. Each row says whether the form raises
Undefined, raises the trap, issues with these arguments, or returns. That an issue row advances the pc is decision D3 (log 10),
and that it refuses the argument which `res0_policy` refuses is decision D11 (log 11), which the table itself does not say. -/
def Obligations.BaseFormFollowsItsDecisionTable : Prop :=
  ∀ (t : Nat) (s : State),
    let pe := s.me
    let i := Instr.tlbiVaale1os t
    let issue := fun security regime vmid attr =>
      exec i s = if res0Refused s.cfg (pe.readX t) then .refused (.res0NotZero (pe.readX t))
        else advancePc (s.addPending (s.newOp security regime vmid attr (pe.readX t)))
    if s.cfg.featTlbios = false then exec i s = raiseUndefined i s
    else if pe.pstate.el = .el0 then exec i s = raiseUndefined i s
    else if pe.pstate.el = .el1 ∧ (el2Enabled s.cfg pe = true ∧ pe.hcrEL2.ttlb = true) then
      exec i s = raiseSystemAccessTrap .el2 0x18 i s
    else if pe.pstate.el = .el1 ∧ (el2Enabled s.cfg pe = true ∧ pe.hcrEL2.ttlbos = true) then
      exec i s = raiseSystemAccessTrap .el2 0x18 i s
    else if pe.pstate.el = .el1 ∧ (el2Enabled s.cfg pe = true ∧ s.cfg.featFgt = true ∧
        (s.cfg.haveEL3 = false ∨ pe.scrEL3.fgten = true) ∧ pe.hfgitrEL2.tlbivaale1os = true) then
      exec i s = raiseSystemAccessTrap .el2 0x18 i s
    else if pe.pstate.el = .el1 ∧ (s.cfg.featXs = true ∧ s.cfg.featHcx = true ∧ isHcrxEl2Enabled s.cfg pe = true ∧
        pe.hcrxEL2.fnxs = true) then
      issue (securityStateAtEL s.cfg .el1 pe) .regimeEL10 (.vmid (currentVmid s.cfg pe)) .excludeXS
    else if pe.pstate.el = .el1 then
      issue (securityStateAtEL s.cfg .el1 pe) .regimeEL10 (.vmid (currentVmid s.cfg pe)) .allAttr
    else if pe.pstate.el = .el2 ∧ el0IsInHost s.cfg pe = true then
      issue (securityStateAtEL s.cfg .el2 pe) .regimeEL20 .vmidNone .allAttr
    else if pe.pstate.el = .el2 then
      issue (securityStateAtEL s.cfg .el1 pe) .regimeEL10 (.vmid (currentVmid s.cfg pe)) .allAttr
    else if el0IsInHost s.cfg pe = true ∧ (s.cfg.featRme = true ∧ validSecurityStateAtEL s.cfg .el2 pe = false) then
      exec i s = advancePc s
    else if el0IsInHost s.cfg pe = true then
      issue (securityStateAtEL s.cfg .el2 pe) .regimeEL20 .vmidNone .allAttr
    else if s.cfg.featRme = true ∧ validSecurityStateAtEL s.cfg .el1 pe = false then
      exec i s = advancePc s
    else
      issue (securityStateAtEL s.cfg .el1 pe) .regimeEL10 (.vmid (currentVmid s.cfg pe)) .allAttr

/-- The decision table of TLBI VAALE1OSNXS (42_tlbi_vaale1osnxs.md), first matching row wins, with issue rows as in the base
form's table: the pc by decision D3 (log 10), the refused argument by decision D11 (log 11). -/
def Obligations.NxsFormFollowsItsDecisionTable : Prop :=
  ∀ (t : Nat) (s : State),
    let pe := s.me
    let i := Instr.tlbiVaale1osnxs t
    let issue := fun security regime vmid =>
      exec i s = if res0Refused s.cfg (pe.readX t) then .refused (.res0NotZero (pe.readX t))
        else advancePc (s.addPending (s.newOp security regime vmid .excludeXS (pe.readX t)))
    if s.cfg.featTlbios = false then exec i s = raiseUndefined i s
    else if s.cfg.featXs = false then exec i s = raiseUndefined i s
    else if pe.pstate.el = .el0 then exec i s = raiseUndefined i s
    else if pe.pstate.el = .el1 ∧ (el2Enabled s.cfg pe = true ∧ pe.hcrEL2.ttlb = true) then
      exec i s = raiseSystemAccessTrap .el2 0x18 i s
    else if pe.pstate.el = .el1 ∧ (el2Enabled s.cfg pe = true ∧ pe.hcrEL2.ttlbos = true) then
      exec i s = raiseSystemAccessTrap .el2 0x18 i s
    else if pe.pstate.el = .el1 ∧ (el2Enabled s.cfg pe = true ∧ s.cfg.featFgt = true ∧
        (s.cfg.haveEL3 = false ∨ pe.scrEL3.fgten = true) ∧ s.cfg.featHcx = true ∧
        (isHcrxEl2Enabled s.cfg pe = false ∨ pe.hcrxEL2.fgtnxs = false) ∧ pe.hfgitrEL2.tlbivaale1os = true) then
      exec i s = raiseSystemAccessTrap .el2 0x18 i s
    else if pe.pstate.el = .el1 then
      issue (securityStateAtEL s.cfg .el1 pe) .regimeEL10 (.vmid (currentVmid s.cfg pe))
    else if pe.pstate.el = .el2 ∧ el0IsInHost s.cfg pe = true then
      issue (securityStateAtEL s.cfg .el2 pe) .regimeEL20 .vmidNone
    else if pe.pstate.el = .el2 then
      issue (securityStateAtEL s.cfg .el1 pe) .regimeEL10 (.vmid (currentVmid s.cfg pe))
    else if el0IsInHost s.cfg pe = true ∧ (s.cfg.featRme = true ∧ validSecurityStateAtEL s.cfg .el2 pe = false) then
      exec i s = advancePc s
    else if el0IsInHost s.cfg pe = true then
      issue (securityStateAtEL s.cfg .el2 pe) .regimeEL20 .vmidNone
    else if s.cfg.featRme = true ∧ validSecurityStateAtEL s.cfg .el1 pe = false then
      exec i s = advancePc s
    else
      issue (securityStateAtEL s.cfg .el1 pe) .regimeEL10 (.vmid (currentVmid s.cfg pe))

/-! ### Completion: where each form answers a next state, and which -/

/-- At EL1 (41_tlbi_vaale1os.md, 42_tlbi_vaale1osnxs.md, decision D3 for the pc): present and not trapped, each form issues the
invalidation of the EL1&0 regime and the pc advances by 4; TLBI VAALE1OS with `TLBI_ExcludeXS` exactly where `HCRX_EL2.FnXS` is
live and set, TLBI VAALE1OSNXS always. -/
def Obligations.BothFormsIssueAtEL1 : Prop :=
  (∀ (t : Nat) (s : State), s.cfg.featTlbios = true → s.me.pstate.el = .el1 →
     trapTtlb s.cfg s.me = false → trapTtlbos s.cfg s.me = false → trapFine s.cfg s.me = false →
     s.ArgumentAccepted t → s.PcBelowTop →
     exec (.tlbiVaale1os t) s =
       .next (s.issued (securityStateAtEL s.cfg .el1 s.me) .regimeEL10 (.vmid (currentVmid s.cfg s.me))
         (if fnxsOverride s.cfg s.me then .excludeXS else .allAttr) (s.me.readX t))) ∧
    ∀ (t : Nat) (s : State), s.cfg.featTlbios = true → s.cfg.featXs = true → s.me.pstate.el = .el1 →
      trapTtlb s.cfg s.me = false → trapTtlbos s.cfg s.me = false → trapFineNxs s.cfg s.me = false →
      s.ArgumentAccepted t → s.PcBelowTop →
      exec (.tlbiVaale1osnxs t) s =
        .next (s.issued (securityStateAtEL s.cfg .el1 s.me) .regimeEL10 (.vmid (currentVmid s.cfg s.me)) .excludeXS
          (s.me.readX t))

/-- At EL2 and EL3 where EL0 is in a host (41_tlbi_vaale1os.md, 42_tlbi_vaale1osnxs.md, decision D3 for the pc): the EL2&0 regime
and no VMID, whatever the trap controls and `HCRX_EL2.FnXS` hold, with `TLBI_AllAttr` for TLBI VAALE1OS and `TLBI_ExcludeXS` for
TLBI VAALE1OSNXS. At EL3 with FEAT_RME the Security state of EL2 must be valid. -/
def Obligations.BothFormsIssueForAHost : Prop :=
  (∀ (t : Nat) (s : State), s.cfg.featTlbios = true → el0IsInHost s.cfg s.me = true →
     (s.me.pstate.el = .el2 ∨ (s.me.pstate.el = .el3 ∧ (s.cfg.featRme = true → validSecurityStateAtEL s.cfg .el2 s.me = true))) →
     s.ArgumentAccepted t → s.PcBelowTop →
     exec (.tlbiVaale1os t) s =
       .next (s.issued (securityStateAtEL s.cfg .el2 s.me) .regimeEL20 .vmidNone .allAttr (s.me.readX t))) ∧
    ∀ (t : Nat) (s : State), s.cfg.featTlbios = true → s.cfg.featXs = true → el0IsInHost s.cfg s.me = true →
      (s.me.pstate.el = .el2 ∨ (s.me.pstate.el = .el3 ∧ (s.cfg.featRme = true → validSecurityStateAtEL s.cfg .el2 s.me = true))) →
      s.ArgumentAccepted t → s.PcBelowTop →
      exec (.tlbiVaale1osnxs t) s =
        .next (s.issued (securityStateAtEL s.cfg .el2 s.me) .regimeEL20 .vmidNone .excludeXS (s.me.readX t))

/-- At EL2 and EL3 where EL0 is not in a host (41_tlbi_vaale1os.md, 42_tlbi_vaale1osnxs.md, decision D3 for the pc): the EL1&0
regime and the current VMID, with `TLBI_AllAttr` for TLBI VAALE1OS and `TLBI_ExcludeXS` for TLBI VAALE1OSNXS. At EL3 with FEAT_RME
the Security state of EL1 must be valid. -/
def Obligations.BothFormsIssueForTheGuest : Prop :=
  (∀ (t : Nat) (s : State), s.cfg.featTlbios = true → el0IsInHost s.cfg s.me = false →
     (s.me.pstate.el = .el2 ∨ (s.me.pstate.el = .el3 ∧ (s.cfg.featRme = true → validSecurityStateAtEL s.cfg .el1 s.me = true))) →
     s.ArgumentAccepted t → s.PcBelowTop →
     exec (.tlbiVaale1os t) s =
       .next (s.issued (securityStateAtEL s.cfg .el1 s.me) .regimeEL10 (.vmid (currentVmid s.cfg s.me)) .allAttr
         (s.me.readX t))) ∧
    ∀ (t : Nat) (s : State), s.cfg.featTlbios = true → s.cfg.featXs = true → el0IsInHost s.cfg s.me = false →
      (s.me.pstate.el = .el2 ∨ (s.me.pstate.el = .el3 ∧ (s.cfg.featRme = true → validSecurityStateAtEL s.cfg .el1 s.me = true))) →
      s.ArgumentAccepted t → s.PcBelowTop →
      exec (.tlbiVaale1osnxs t) s =
        .next (s.issued (securityStateAtEL s.cfg .el1 s.me) .regimeEL10 (.vmid (currentVmid s.cfg s.me)) .excludeXS
          (s.me.readX t))

/-- At EL3 with FEAT_RME and an invalid Security state for the target level both forms only advance the pc, whatever their
argument (41_tlbi_vaale1os.md, 42_tlbi_vaale1osnxs.md, decision D3 for the pc). -/
def Obligations.InvalidSecurityStateAtEL3IsANoOp : Prop :=
  ∀ (t : Nat) (s : State), s.cfg.featTlbios = true → s.cfg.featXs = true → s.me.pstate.el = .el3 →
    s.cfg.featRme = true →
    validSecurityStateAtEL s.cfg (if el0IsInHost s.cfg s.me then .el2 else .el1) s.me = false → s.PcBelowTop →
    exec (.tlbiVaale1os t) s = .next { s with pes := s.pes.set s.cur { s.me with pc := s.me.pc + 4 } } ∧
      exec (.tlbiVaale1osnxs t) s = .next { s with pes := s.pes.set s.cur { s.me with pc := s.me.pc + 4 } }

/-- The top of the address space (10_state.md section 1, `pc_wrap` of decision D3, log 10), wherever a form issues with an accepted
argument or returns: with `pc + 4` past the top, the form is refused by name under `refuse`; under the other policies the call is
issued, if there is one, with all its arguments, and nothing else changes but the pc, which under `wrap` is `pc + 4`. The count
`issues` is the model's own (log 12). -/
def Obligations.PcAtTheTopFollowsThePolicy : Prop :=
  ∀ (i : Instr) (s : State), ¬ s.UndefinedCause i → ¬ s.TrapCause i → (s.ReturnsSilently ∨ s.ArgumentAccepted i.rt) →
    ¬ s.PcBelowTop →
    (s.cfg.pcWrap = .refuse → exec i s = .refused (.pcPastTop s.me.pc)) ∧
    (s.cfg.pcWrap ≠ .refuse → ∃ v : Word64, (s.cfg.pcWrap = .wrap → v = s.me.pc + 4) ∧
      exec i s = .next
        { s with
          pending := if s.ReturnsSilently then s.pending else s.pending ++ [s.newPending (s.callOf i)]
          issues := if s.ReturnsSilently then s.issues else s.issues + 1
          pes := s.pes.set s.cur { s.me with pc := v } })

/-! ### What an issue records -/

/-- Every record the two forms add holds the seven arguments in the values the source ever passes, the issuing PE, and
`EL2Enabled()` and `SCR_EL3.EEL2` at issue, and is performed nowhere in its domain (40_invalidation_operation.md section 1,
10_state.md section 4). That it bears the next number of an issue, which counts on, and that no set and no count is kept in it yet,
is the model's choice (logs 12, 16 and 19). -/
def Obligations.IssuedRecordsHoldTheArguments : Prop :=
  ∀ (i : Instr) (s u : State), exec i s = .next u → u.pending ≠ s.pending →
    ∃ op : TlbiOp, u.pending = s.pending ++ [s.newPending op] ∧ op.issuer = s.cur ∧
      ((op.security = securityStateAtEL s.cfg .el1 s.me ∧ op.regime = .regimeEL10 ∧ op.vmid = .vmid (currentVmid s.cfg s.me)) ∨
        (op.security = securityStateAtEL s.cfg .el2 s.me ∧ op.regime = .regimeEL20 ∧ op.vmid = .vmidNone)) ∧
      op.shareability = .osh ∧ op.level = .last ∧ (op.attr = .allAttr ∨ op.attr = .excludeXS) ∧
      op.xt = s.me.readX i.rt ∧ op.el2Enabled = el2Enabled s.cfg s.me ∧ op.eel2 = s.me.scrEL3.eel2 ∧
      (s.newPending op).op = op ∧ (s.newPending op).progress.map Progress.pe = s.domain op ∧
      u.issues = s.issues + 1 ∧ (s.newPending op).serial = s.issues ∧
      ∀ q ∈ (s.newPending op).progress, q.performed = false ∧ q.required = [] ∧ q.before = 0

/-- What a pending operation waits for, and which attribute the two forms pass; without FEAT_XS it is always `TLBI_AllAttr`
(40_invalidation_operation.md section 4; the last clause is an inference of the spec). -/
def Obligations.AttributeDecidesWhatIsWaitedFor : Prop :=
  (∀ a : Access, waits .allAttr a = true ∧ (waits .excludeXS a = true ↔ a.xs = false)) ∧
    ∀ (i : Instr) (s u : State) (pd : Pending), exec i s = .next u → u.pending = s.pending ++ [pd] →
      (pd.op.attr = .excludeXS ↔
        (∃ t, i = .tlbiVaale1osnxs t) ∨ (s.me.pstate.el = .el1 ∧ fnxsOverride s.cfg s.me = true)) ∧
      (s.cfg.featXs = false → pd.op.attr = .allAttr)

/-- The domain of an operation (40_invalidation_operation.md section 3; `OSH` of 00_scope.md section 4, D25): PEs of the system,
each once, the issuing PE among them. -/
def Obligations.DomainHoldsTheIssuer : Prop :=
  ∀ (s : State) (p : PEId), p < s.pes.length →
    p ∈ s.osh p ∧ (s.osh p).Nodup ∧ ∀ q, q ∈ s.osh p ↔ q < s.pes.length ∧ (q = p ∨ (p, q) ∈ s.cfg.osh)

/-- With `HCRX_EL2.FnXS` live and set and no trap taken, the two forms at EL1 have the same effect (42_tlbi_vaale1osnxs.md, item 7
of the corner cases). -/
def Obligations.FnxsMakesTheFormsAlike : Prop :=
  ∀ (t : Nat) (s : State), s.cfg.featTlbios = true → s.me.pstate.el = .el1 → fnxsOverride s.cfg s.me = true →
    trapTtlb s.cfg s.me = false → trapTtlbos s.cfg s.me = false → trapFine s.cfg s.me = false →
    exec (.tlbiVaale1os t) s = exec (.tlbiVaale1osnxs t) s

/-! ### Exceptions -/

/-- Every cause of Undefined, complete (60_exceptions.md section 1), with the fault outcome of decision D15 as what a raise
shows. -/
def Obligations.UndefinedHasExactlyItsCauses : Prop :=
  ∀ (t : Nat) (s : State), s.cfg.exceptions = .faultOutcome →
    (exec (.tlbiVaale1os t) s = .fault (.undefined (encode (.tlbiVaale1os t))) ↔
      s.cfg.featTlbios = false ∨ s.me.pstate.el = .el0) ∧
    (exec (.tlbiVaale1osnxs t) s = .fault (.undefined (encode (.tlbiVaale1osnxs t))) ↔
      s.cfg.featTlbios = false ∨ s.cfg.featXs = false ∨ s.me.pstate.el = .el0)

/-- Every cause of the trap to EL2, complete (60_exceptions.md section 1), with the fault outcome of decision D15 as what a raise
shows. An absent instruction is not trapped. -/
def Obligations.TrapHasExactlyItsCauses : Prop :=
  ∀ (t : Nat) (s : State), s.cfg.exceptions = .faultOutcome →
    (exec (.tlbiVaale1os t) s = .fault (.systemAccessTrap .el2 0x18 (encode (.tlbiVaale1os t))) ↔
      s.cfg.featTlbios = true ∧ s.me.pstate.el = .el1 ∧ el2Enabled s.cfg s.me = true ∧
        (s.me.hcrEL2.ttlb = true ∨ s.me.hcrEL2.ttlbos = true ∨
          (s.cfg.featFgt = true ∧ (s.cfg.haveEL3 = false ∨ s.me.scrEL3.fgten = true) ∧
            s.me.hfgitrEL2.tlbivaale1os = true))) ∧
    (exec (.tlbiVaale1osnxs t) s = .fault (.systemAccessTrap .el2 0x18 (encode (.tlbiVaale1osnxs t))) ↔
      s.cfg.featTlbios = true ∧ s.cfg.featXs = true ∧ s.me.pstate.el = .el1 ∧ el2Enabled s.cfg s.me = true ∧
        (s.me.hcrEL2.ttlb = true ∨ s.me.hcrEL2.ttlbos = true ∨
          (s.cfg.featFgt = true ∧ (s.cfg.haveEL3 = false ∨ s.me.scrEL3.fgten = true) ∧ s.cfg.featHcx = true ∧
            (isHcrxEl2Enabled s.cfg s.me = false ∨ s.me.hcrxEL2.fgtnxs = false) ∧
            s.me.hfgitrEL2.tlbivaale1os = true)))

/-- Execution at EL2, at EL3 and at EL0 is never trapped, and no trap goes anywhere but to EL2 (60_exceptions.md section 5, with
the fault outcome of decision D15 as what a trap shows). -/
def Obligations.OnlyEL1IsTrappedAndOnlyToEL2 : Prop :=
  ∀ (i : Instr) (s : State) (target : EL) (ec : BitVec 6) (w : InstrWord),
    exec i s = .fault (.systemAccessTrap target ec w) → s.me.pstate.el = .el1 ∧ target = .el2 ∧ ec = 0x18 ∧ w = encode i

/-- No exception depends on the value of the argument (60_exceptions.md sections 1 and 4, inferences of the spec), with the
reference helpers (log 2). Where exceptions are fault outcomes, a form that faults does so with the same fault whatever the
register file holds. Where they are entered (log 3), a form that raises enters its handler whatever the register file holds: the
trap leaves the same PE but for the register file, and Undefined the same level, return address, saved `PSTATE` and class (its IL,
its ISS and the vector offset to the current level are free values, log 4). -/
def Obligations.FaultsDoNotReadTheArgument : Prop :=
  ∀ (i : Instr) (s : State) (x : Vector Word64 31), s.cfg.helpers = .reference → s.cur < s.pes.length →
    (∀ f : Fault, exec i s = .fault f → exec i (s.setPe s.cur { s.me with x := x }) = .fault f) ∧
    (s.cfg.exceptions = .enterHandler → s.UndefinedCause i ∨ s.TrapCause i →
      ∃ u v, exec i s = .next u ∧ exec i (s.setPe s.cur { s.me with x := x }) = .next v ∧
        u.pending = s.pending ∧ v.pending = s.pending ∧ v.me.x = x ∧ v.me.pstate = u.me.pstate ∧
        (∀ el, (v.me.excBank el).elr = (u.me.excBank el).elr ∧ (v.me.excBank el).spsr = (u.me.excBank el).spsr ∧
          (v.me.excBank el).esr.ec = (u.me.excBank el).esr.ec) ∧
        (s.me.pstate.el = .el0 → v.me.pc = u.me.pc) ∧
        (s.TrapCause i → v.me = { u.me with x := x }))

/-- The entry of the trap where the model continues into a handler (general knowledge G7, log 3), for every cause of the trap, coarse
and fine-grained, of either form: the return address is the trapped instruction's own, `PSTATE` is saved, the syndrome holds class
0x18 and the instruction's fields, with the bits above those that G7 gives zero (log 3: PRESUMED), and nothing is issued. The pc
is the vector base plus the offset modulo 2 to the 64 (log 3: DESIGN CHOICE at the top of the address space). This is
where a form traps, not where it completes. -/
def Obligations.TrapEntersTheHandlerAtEL2 : Prop :=
  ∀ (i : Instr) (s : State), s.cfg.exceptions = .enterHandler → s.cur < s.pes.length → s.TrapCause i →
    ∃ u, exec i s = .next u ∧ u.pending = s.pending ∧ u.me.pc = s.me.excEL2.vbar + 0x400 ∧
      u.me.pstate = { el := .el2, interruptsMasked := true } ∧ u.me.excEL2.elr = s.me.pc ∧
      u.me.excEL2.spsr = s.me.pstate ∧ u.me.excEL2.esr.ec = 0x18 ∧ u.me.excEL2.esr.il = true ∧
      u.me.excEL2.esr.iss.toNat = 1 * 2 ^ 20 + 7 * 2 ^ 17 + 0 * 2 ^ 14 +
        (match i with | .tlbiVaale1os _ => 8 | .tlbiVaale1osnxs _ => 9) * 2 ^ 10 + i.rt % 32 * 2 ^ 5 + 1 * 2 ^ 1

/-- The entry of an Undefined exception where the model continues into a handler (general knowledge G8, log 3), for every cause, at
every level: from EL0 to EL2 where `HCR_EL2.TGE` is 1 and EL2 is enabled, else to EL1; from EL1, EL2 and EL3 to the same level,
where the vector offset is a free value (log 4). The pc is the vector base plus the offset modulo 2 to the 64 (log 3: DESIGN
CHOICE at the top of the address space). The return address is the instruction's own, `PSTATE` is saved, the class is 0,
and the registers of the other levels stay. -/
def Obligations.UndefinedEntersAHandler : Prop :=
  ∀ (i : Instr) (s : State), s.cfg.exceptions = .enterHandler → s.cur < s.pes.length → s.UndefinedCause i →
    let target :=
      if s.me.pstate.el = .el0 then (if s.me.hcrEL2.tge = true ∧ el2Enabled s.cfg s.me = true then EL.el2 else EL.el1)
      else s.me.pstate.el
    ∃ u, exec i s = .next u ∧ u.pending = s.pending ∧ u.me.pstate = { el := target, interruptsMasked := true } ∧
      u.me.pc = (s.me.excBank target).vbar +
        (if s.me.pstate.el = .el0 then 0x400 else Config.freeSameElOffset s.cfg s.me) ∧
      (u.me.excBank target).elr = s.me.pc ∧ (u.me.excBank target).spsr = s.me.pstate ∧
      (u.me.excBank target).esr.ec = 0 ∧ (u.me.excBank target).vbar = (s.me.excBank target).vbar ∧
      ∀ el, el ≠ .el0 → el ≠ target → u.me.excBank el = s.me.excBank el

/-! ### Frames -/

/-- What TLBI VAALE1OS and TLBI VAALE1OSNXS leave unchanged when they end by issuing or by returning (10_state.md sections 1, 2
and 4): every general register, `PSTATE`, every System register field and exception register, every TLB and access in flight, on
every PE, all of memory, and the records already pending. The pc of the executing PE may change and one record may be added.
The counts `started` and `issues` are the model's own (logs 12 and 19). -/
def Obligations.BothFormsFrameWhereExceptionsAreFaults : Prop :=
  ∀ (i : Instr) (s u : State), s.cfg.exceptions = .faultOutcome → exec i s = .next u →
    u.cfg = s.cfg ∧ u.cur = s.cur ∧ u.agenda = s.agenda ∧ u.draws = s.draws ∧ u.pes.length = s.pes.length ∧
      (∀ a, u.mem.readByte a = s.mem.readByte a) ∧
      (∀ q, q ≠ s.cur → u.pe q = s.pe q) ∧
      u.me.x = s.me.x ∧ u.me.pstate = s.me.pstate ∧ u.me.hcrEL2 = s.me.hcrEL2 ∧ u.me.scrEL3 = s.me.scrEL3 ∧
      u.me.hfgitrEL2 = s.me.hfgitrEL2 ∧ u.me.hcrxEL2 = s.me.hcrxEL2 ∧ u.me.vttbrEL2vmid = s.me.vttbrEL2vmid ∧
      u.me.vtcrEL2vs = s.me.vtcrEL2vs ∧ u.me.excEL1 = s.me.excEL1 ∧ u.me.excEL2 = s.me.excEL2 ∧
      u.me.excEL3 = s.me.excEL3 ∧ u.me.tlb = s.me.tlb ∧ u.me.inFlight = s.me.inFlight ∧ u.me.started = s.me.started ∧
      ((u.pending = s.pending ∧ u.issues = s.issues) ∨ ∃ pd, u.pending = s.pending ++ [pd] ∧ u.issues = s.issues + 1)

/-- What TLBI VAALE1OS and TLBI VAALE1OSNXS leave unchanged whenever they answer a next state, whether exceptions are fault
outcomes or are entered (general knowledge G7, G8, log 3). Where the form issues or returns, as above. Where it enters a handler,
no record is added, and beside the pc and `PSTATE` only the syndrome, return address and saved `PSTATE` of the level that takes
the exception may change. The counts `started` and `issues` are the model's own (logs 12 and 19). -/
def Obligations.BothFormsFrameWhereExceptionsAreEntered : Prop :=
  ∀ (i : Instr) (s u : State), exec i s = .next u →
    u.cfg = s.cfg ∧ u.cur = s.cur ∧ u.agenda = s.agenda ∧ u.draws = s.draws ∧ u.pes.length = s.pes.length ∧
      (∀ a, u.mem.readByte a = s.mem.readByte a) ∧
      (∀ q, q ≠ s.cur → u.pe q = s.pe q) ∧
      u.me.x = s.me.x ∧ u.me.hcrEL2 = s.me.hcrEL2 ∧ u.me.scrEL3 = s.me.scrEL3 ∧ u.me.hfgitrEL2 = s.me.hfgitrEL2 ∧
      u.me.hcrxEL2 = s.me.hcrxEL2 ∧ u.me.vttbrEL2vmid = s.me.vttbrEL2vmid ∧ u.me.vtcrEL2vs = s.me.vtcrEL2vs ∧
      u.me.tlb = s.me.tlb ∧ u.me.inFlight = s.me.inFlight ∧ u.me.started = s.me.started ∧
      u.me.excEL1.vbar = s.me.excEL1.vbar ∧ u.me.excEL2.vbar = s.me.excEL2.vbar ∧ u.me.excEL3.vbar = s.me.excEL3.vbar ∧
      ((u.me.pstate = s.me.pstate ∧ u.me.excEL1 = s.me.excEL1 ∧ u.me.excEL2 = s.me.excEL2 ∧ u.me.excEL3 = s.me.excEL3 ∧
          ((u.pending = s.pending ∧ u.issues = s.issues) ∨
            ∃ pd, u.pending = s.pending ++ [pd] ∧ u.issues = s.issues + 1)) ∨
        (u.pending = s.pending ∧ u.issues = s.issues ∧ s.cfg.exceptions = .enterHandler ∧ u.me.pstate.el ≠ .el0 ∧
          (u.me.pstate.el ≠ .el1 → u.me.excEL1 = s.me.excEL1) ∧ (u.me.pstate.el ≠ .el2 → u.me.excEL2 = s.me.excEL2) ∧
          (u.me.pstate.el ≠ .el3 → u.me.excEL3 = s.me.excEL3)))

/-! ### Performing and completing -/

/-- `Perform` (40_invalidation_operation.md section 4, decision D7): where a record waits for a PE, afterwards the PE's TLB holds
only entries it held before, and none that was required to go there. The record is the same but for its flag of that PE, which is
set and holds exactly the entries that were required to go, and how many accesses the PE had started (logs 16, 19). -/
def Obligations.PerformRemovesWhatIsRequired : Prop :=
  ∀ (s : State) (index : Nat) (p : PEId) (extra : List TLBEntry) (pd : Pending),
    s.pending[index]? = some pd → pd.awaits p = true → p < s.pes.length →
    (∀ e ∈ ((perform index p extra s).pe p).tlb,
        e ∈ (s.pe p).tlb ∧ (eel2Excepted pd.op (s.pe p) = false → required s.cfg pd.op e = false)) ∧
      ∃ pd', (perform index p extra s).pending[index]? = some pd' ∧ pd'.serial = pd.serial ∧ pd'.op = pd.op ∧
        pd'.awaits p = false ∧ pd'.progress.map Progress.pe = pd.progress.map Progress.pe ∧
        (∀ q ∈ pd.progress, q.pe ≠ p ∨ q.performed = true → q ∈ pd'.progress) ∧
        ∀ q ∈ pd'.progress, q ∈ pd.progress ∨
          (q.pe = p ∧ q.performed = true ∧ q.before = (s.pe p).started ∧
            ∀ e, e ∈ q.required ↔
              e ∈ (s.pe p).tlb ∧ eel2Excepted pd.op (s.pe p) = false ∧ required s.cfg pd.op e = true)

/-- The set that goes is free between the required entries and the whole TLB (40_invalidation_operation.md section 4,
decision D7): for every such set some `Perform` removes exactly it. -/
def Obligations.PerformMayRemoveAnySetAboveTheRequired : Prop :=
  ∀ (s : State) (index : Nat) (p : PEId) (pd : Pending) (gone : List TLBEntry),
    s.pending[index]? = some pd → pd.awaits p = true → p < s.pes.length →
    (∀ e ∈ requiredOn s.cfg pd.op (s.pe p), e ∈ gone) → (∀ e ∈ gone, e ∈ (s.pe p).tlb) →
    ∃ extra, ∀ e, e ∈ ((perform index p extra s).pe p).tlb ↔ e ∈ (s.pe p).tlb ∧ e ∉ gone

/-- The Secure EL1&0 exception (40_invalidation_operation.md section 3, decision D14): nothing is required of a PE whose
`SCR_EL3.EEL2` differs from the issuer's at issue, and its TLB may stay as it is. -/
def Obligations.DifferingEel2RequiresNothing : Prop :=
  ∀ (s : State) (index : Nat) (p : PEId) (pd : Pending),
    s.pending[index]? = some pd → pd.awaits p = true → pd.op.regime = .regimeEL10 → pd.op.security = .secure →
    (s.pe p).scrEL3.eel2 ≠ pd.op.eel2 →
    requiredOn s.cfg pd.op (s.pe p) = [] ∧ (∀ q, (perform index p [] s).pe q = s.pe q) ∧
      ∃ pd', (perform index p [] s).pending[index]? = some pd' ∧ pd'.awaits p = false

/-- R170: the remote effect is silent. A step that performs an invalidation on a PE answers a next state in which every register,
the pc, `PSTATE` and the accesses in flight of every PE are as before, and so is memory. -/
def Obligations.RemoteEffectIsSilent : Prop :=
  ∀ (s : State) (index : Nat) (p : PEId) (extra : List TLBEntry), s.nextEvent = .perform index p extra →
    ∃ u, step s = .next u ∧ u.mem = s.mem ∧ u.cur = s.cur ∧
      ∀ q, (u.pe q).SameRegisters (s.pe q) ∧ (u.pe q).inFlight = (s.pe q).inFlight ∧
        (u.pe q).started = (s.pe q).started ∧ (q ≠ p → u.pe q = s.pe q)

/-- PEs outside the domain of an operation are not affected by its `Perform` steps (40_invalidation_operation.md section 3). -/
def Obligations.OutsideTheDomainNothingIsPerformed : Prop :=
  ∀ (s : State) (index : Nat) (p : PEId) (extra : List TLBEntry) (pd : Pending), s.Inv →
    s.pending[index]? = some pd → p ∉ s.domain pd.op → perform index p extra s = s

/-- The order of the `Perform` steps of one operation on two PEs is immaterial (40_invalidation_operation.md section 4). -/
def Obligations.PerformOrderIsImmaterial : Prop :=
  ∀ (s : State) (index : Nat) (p q : PEId) (ep eq : List TLBEntry), p ≠ q →
    perform index q eq (perform index p ep s) = perform index p ep (perform index q eq s)

/-- The operation raises no exception and cannot fail (40_invalidation_operation.md section 4). If no entry matches nothing need be
removed, and an operation that was
performed everywhere with nothing to remove is complete. -/
def Obligations.PerformCannotFail : Prop :=
  (∀ (s : State) (index : Nat) (p : PEId) (extra : List TLBEntry), s.nextEvent = .perform index p extra →
      ∃ u, step s = .next u) ∧
    (∀ (s : State) (index : Nat) (p : PEId) (pd : Pending), s.pending[index]? = some pd →
      (∀ e ∈ (s.pe p).tlb, required s.cfg pd.op e = false) → ((perform index p [] s).pe p).tlb = (s.pe p).tlb) ∧
    ∀ (s : State) (pd : Pending), (∀ q ∈ pd.progress, q.performed = true ∧ q.required = []) → complete s pd = true

/-- `Complete(op)` (40_invalidation_operation.md section 4), for a record as the invariant has it: performed on every PE of the
domain, and on each no access that is waited for uses an entry that `Perform` was required to remove there, where an access that
started after `Perform` uses none (log 19). -/
def Obligations.CompleteMeansPerformedAndDrained : Prop :=
  ∀ (s : State) (pd : Pending), pd.wf s →
    (complete s pd = true ↔
      ∀ p ∈ s.domain pd.op, ∃ q ∈ pd.progress, q.pe = p ∧ q.performed = true ∧
        ∀ a ∈ (s.pe p).inFlight, a.serial < q.before → a.entry ∈ q.required → pd.op.attr = .excludeXS ∧ a.xs = true)

/-- R118: the two attributes differ in nothing but what is waited for. Which entries are required, on which PEs and what
`Perform` does to a TLB are the same; and an operation that excludes XS accesses can be complete while such an access is still in
flight with an entry it removed. -/
def Obligations.AttributeChangesOnlyCompletion : Prop :=
  (∀ (s : State) (op : TlbiOp) (attr : TlbiAttr) (pe : PE) (extra : List TLBEntry),
      requiredOn s.cfg { op with attr := attr } pe = requiredOn s.cfg op pe ∧
        s.domain { op with attr := attr } = s.domain op ∧
        tlbAfterPerform s.cfg { op with attr := attr } extra pe = tlbAfterPerform s.cfg op extra pe) ∧
    (∀ (s : State) (pd : Pending) (attr : TlbiAttr), pd.op.attr = .allAttr → complete s pd = true →
      complete s { pd with op := { pd.op with attr := attr } } = true) ∧
    ∃ (s : State) (pd : Pending) (q : Progress) (a : Access), s.Inv ∧ pd ∈ s.pending ∧ pd.op.attr = .excludeXS ∧
      complete s pd = true ∧ q ∈ pd.progress ∧ a ∈ (s.pe q.pe).inFlight ∧ a.serial < q.before ∧ a.entry ∈ q.required ∧
      a.xs = true

/-- How a TLB changes (10_state.md section 4, decision D6). A well-formed entry that is filled is in the TLB afterwards, an entry
that is evicted is not, and each of the two events changes nothing else in the system. An entry appears only when it is filled,
of the form an entry has (one of 128 bits with FEAT_D128 only, 20_memory.md section 3; log 34), and disappears only when it is
evicted or an invalidation is performed there: no instruction creates or removes one. -/
def Obligations.EntriesComeByFillAndGoByEvictionOrPerform : Prop :=
  (∀ (s : State) (p : PEId) (e : TLBEntry), s.nextEvent = .fill p e → p < s.pes.length → e.wf s.cfg = true →
      ∃ u, step s = .next u ∧ (∀ f, f ∈ (u.pe p).tlb ↔ f = e ∨ f ∈ (s.pe p).tlb) ∧
        u.pe p = { s.pe p with tlb := (u.pe p).tlb } ∧ (∀ q, q ≠ p → u.pe q = s.pe q) ∧ u.pending = s.pending ∧ u.mem = s.mem) ∧
    (∀ (s : State) (p : PEId) (e : TLBEntry), s.nextEvent = .evict p e → (s.pe p).tlb.Nodup →
      ∃ u, step s = .next u ∧ (∀ f, f ∈ (u.pe p).tlb ↔ f ∈ (s.pe p).tlb ∧ f ≠ e) ∧
        u.pe p = { s.pe p with tlb := (u.pe p).tlb } ∧ (∀ q, q ≠ p → u.pe q = s.pe q) ∧ u.pending = s.pending ∧ u.mem = s.mem) ∧
    ∀ (s u : State) (p : PEId) (e : TLBEntry), step s = .next u →
      (e ∉ (s.pe p).tlb → e ∈ (u.pe p).tlb →
        s.nextEvent = .fill p e ∧ e.wf s.cfg = true ∧ (e.descBits = .bits128 → s.cfg.featD128 = true)) ∧
      (e ∈ (s.pe p).tlb → e ∉ (u.pe p).tlb →
        s.nextEvent = .evict p e ∨ ∃ index extra, s.nextEvent = .perform index p extra)

/-- How the accesses in flight change (10_state.md section 4; log 18). An access that starts with an entry of the TLB is in flight
afterwards, one that finishes is not, and each of the two events changes nothing else in the system. An access comes into flight
only so, with an entry that the TLB held then, and leaves only so. That an access bears the next number of its PE and that the
count goes on by one is the model's own (logs 12 and 19: DESIGN CHOICE). -/
def Obligations.AccessesStartAndFinish : Prop :=
  (∀ (s : State) (p : PEId) (e : TLBEntry) (xs : Bool), s.nextEvent = .startAccess p e xs → p < s.pes.length →
      e ∈ (s.pe p).tlb →
      ∃ u, step s = .next u ∧
        u.pe p = { s.pe p with
          inFlight := (s.pe p).inFlight ++ [{ entry := e, xs := xs, serial := (s.pe p).started }]
          started := (s.pe p).started + 1 } ∧
        (∀ q, q ≠ p → u.pe q = s.pe q) ∧ u.pending = s.pending ∧ u.mem = s.mem) ∧
    (∀ (s : State) (p : PEId) (index : Nat), s.nextEvent = .finishAccess p index →
      ∃ u, step s = .next u ∧
        u.pe p = { s.pe p with inFlight := (s.pe p).inFlight.take index ++ (s.pe p).inFlight.drop (index + 1) } ∧
        (∀ q, q ≠ p → u.pe q = s.pe q) ∧ u.pending = s.pending ∧ u.mem = s.mem) ∧
    ∀ (s u : State) (p : PEId) (a : Access), step s = .next u →
      (a ∉ (s.pe p).inFlight → a ∈ (u.pe p).inFlight →
        s.nextEvent = .startAccess p a.entry a.xs ∧ a.entry ∈ (s.pe p).tlb ∧ a.serial = (s.pe p).started) ∧
      (a ∈ (s.pe p).inFlight → a ∉ (u.pe p).inFlight → ∃ index, s.nextEvent = .finishAccess p index)

/-- Completion is not undone (40_invalidation_operation.md section 4, an inference of the spec; log 19): for a record as the
invariant has it, no step adds an access to those that completion waits for where the record has been performed, even where an
equal entry was loaded again, and a complete record stays complete. -/
def Obligations.CompletionIsNotUndone : Prop :=
  ∀ (s u : State) (pd : Pending), pd.wf s → step s = .next u →
    (∀ q ∈ pd.progress, q.performed = true → ∀ a ∈ (u.pe q.pe).inFlight, q.removedEntryOf a = true →
      a ∈ (s.pe q.pe).inFlight) ∧
    (complete s pd = true → complete u pd = true)

/-- No step cancels a pending invalidation (60_exceptions.md section 2, decision D26; 40_invalidation_operation.md section 4): each
record is still there with every flag it had, or it was complete and was dropped. Its dropping drops a record that is complete and
only that, leaves the system as it is where the record is not complete, and changes no PE (log 33). The numbers of the
records and their count `issues` are the model's own (log 12). -/
def Obligations.PendingInvalidationsAreNeverCancelled : Prop :=
  (∀ (s u : State) (pd : Pending), step s = .next u → pd ∈ s.pending →
      (complete s pd = true ∧ ∃ index, s.nextEvent = .retire index) ∨
        ∃ pd' ∈ u.pending, pd'.serial = pd.serial ∧ pd'.op = pd.op ∧
          pd'.progress.map Progress.pe = pd.progress.map Progress.pe ∧
          ∀ q ∈ pd.progress, q.performed = true → q ∈ pd'.progress) ∧
    ∀ (s : State) (index : Nat) (pd : Pending), s.nextEvent = .retire index → s.pending[index]? = some pd →
      ∃ u, step s = .next u ∧ u.pes = s.pes ∧ u.mem = s.mem ∧ u.issues = s.issues ∧
        u.pending =
          if complete s pd then s.pending.take index ++ s.pending.drop (index + 1) else s.pending

/-- What a program may rely on (40_invalidation_operation.md section 4, an inference of the spec): after `Perform` on a PE, as
long as no required entry is filled again there, the PE's TLB holds no required entry, whatever else happens. -/
def Obligations.RequiredEntriesStayGoneUnlessRefilled : Prop :=
  ∀ (s u : State) (index : Nat) (p : PEId) (extra : List TLBEntry) (later : List Event) (pd : Pending),
    s.agenda = .perform index p extra :: later → s.pending[index]? = some pd → pd.awaits p = true → p < s.pes.length →
    eel2Excepted pd.op (s.pe p) = false →
    (∀ e, .fill p e ∈ later → required s.cfg pd.op e = false) →
    core.run (later.length + 1) s = .next u →
    ∀ e ∈ (u.pe p).tlb, required s.cfg pd.op e = false

/-- A TLB that holds no entry an operation requires to go stays so: from every state in which `TLB(p)` holds none, a step whose event
is no fill of `p` with one answers a state in which it holds none (40_invalidation_operation.md section 4, an inference of the
spec; 10_state.md section 4, decision D6). -/
def Obligations.NoRequiredEntryReturnsButByFill : Prop :=
  ∀ (s u : State) (op : TlbiOp) (p : PEId), (∀ e ∈ (s.pe p).tlb, required s.cfg op e = false) →
    (∀ e, s.nextEvent = .fill p e → required s.cfg op e = false) → step s = .next u →
    ∀ e ∈ (u.pe p).tlb, required u.cfg op e = false

/-- Every enabled `Perform` step is eventually taken: under that assumption (40_invalidation_operation.md section 4,
70_reset_and_hazards.md section 4; log 29), on every run from a state of the invariant, each pending invalidation is from some step
on performed on every PE of its domain, for as long as it is pending. -/
def Obligations.FairRunsPerformEveryInvalidation : Prop :=
  ∀ (schedule : Nat → Event) (r : Nat → State), (r 0).Inv → IsRun schedule r → Fair schedule r →
    ∀ n, ∀ pd ∈ (r n).pending, ∃ m, n ≤ m ∧ ∀ k, m ≤ k → ∀ pd' ∈ (r k).pending, pd'.serial = pd.serial →
      pd'.op = pd.op ∧ ∀ q ∈ pd'.progress, q.performed = true

/-- Performing everywhere completes (40_invalidation_operation.md section 4, decision D7): from every state of the invariant, when
the `Perform` steps of a fresh record on all PEs of its domain come next, after them no TLB of the domain holds a required entry
(but for the Secure EL1&0 exception), and the operation is complete if no access is in flight in the domain. -/
def Obligations.PerformingEverywhereCompletes : Prop :=
  ∀ (s : State) (index : Nat) (pd : Pending) (later : List Event), s.Inv → s.pending[index]? = some pd →
    (∀ q ∈ pd.progress, q.performed = false) → s.agenda = performAll index (s.domain pd.op) ++ later →
    ∃ u pd', core.run (s.domain pd.op).length s = .next u ∧ u.agenda = later ∧ u.pending[index]? = some pd' ∧
      pd'.op = pd.op ∧ (∀ q ∈ pd'.progress, q.performed = true) ∧
      (∀ p ∈ s.domain pd.op, eel2Excepted pd.op (s.pe p) = false → ∀ e ∈ (u.pe p).tlb, required s.cfg pd.op e = false) ∧
      ((∀ p ∈ s.domain pd.op, (s.pe p).inFlight = []) → complete u pd' = true)

/-! ### The whole machine -/

/-- Every step keeps the invariant: memory stays in its canonical form, every TLB stays a set of well-formed entries, every
Exception level stays an implemented one, every pending record keeps one flag for each PE of its domain, and no two accesses of a
PE and no two pending records share a number. -/
def Obligations.StepKeepsTheInvariant : Prop :=
  ∀ s u : State, s.Inv → step s = .next u → u.Inv

/-- The state after reset meets the invariant. -/
def Obligations.ResetMeetsTheInvariant : Prop := State.reset.Inv

/-- After reset nothing is pending (10_state.md section 5, decision D16). Every register holds the value of log 5, which is the
model's choice and no value of the spec: the general registers, the pc, `PSTATE`, the System register fields and the exception
registers. -/
def Obligations.ResetHasNothingPending : Prop :=
  State.reset.pending = [] ∧ State.reset.mem = [] ∧ ∀ p, p < State.reset.pes.length →
    let pe := State.reset.pe p
    pe.pstate = { el := .el3, interruptsMasked := true } ∧ pe.pc = 0 ∧ (∀ t, pe.readX t = 0) ∧
      pe.hcrEL2 = { ttlb := false, ttlbos := false, e2h := false, tge := false } ∧
      pe.scrEL3 = { ns := false, nse := false, eel2 := false, fgten := false, hxen := false } ∧
      pe.hfgitrEL2 = { tlbivaale1os := false } ∧ pe.hcrxEL2 = { fnxs := false, fgtnxs := false } ∧
      pe.vttbrEL2vmid = 0 ∧ pe.vtcrEL2vs = false ∧
      ∀ el, (pe.excBank el).esr = { ec := 0, il := false, iss := 0 } ∧ (pe.excBank el).elr = 0 ∧ (pe.excBank el).vbar = 0 ∧
        (pe.excBank el).spsr = { el := .el0, interruptsMasked := false }

/-- No step changes the configuration or the number of PEs (00_scope.md section 4, log 1). -/
def Obligations.StepKeepsTheConfiguration : Prop :=
  ∀ s u : State, step s = .next u → u.cfg = s.cfg ∧ u.pes.length = s.pes.length

/-- Only a PE's own execution changes its registers (10_state.md sections 2 and 4, inferences of the spec): on every other event
they stay, and when the PE executes, only its pc changes where exceptions are fault outcomes (decision D15). -/
def Obligations.OnlyItsOwnExecutionChangesAPE : Prop :=
  ∀ (s u : State) (q : PEId), step s = .next u →
    (s.nextEvent ≠ .execute q → (u.pe q).SameRegisters (s.pe q)) ∧
    (s.nextEvent = .execute q → s.cfg.exceptions = .faultOutcome → u.pe q = { s.pe q with pc := (u.pe q).pc })

/-- Outside an exception entry no step changes a System register, `PSTATE` or a general register of any PE (10_state.md sections 1
and 2, inferences of the spec). -/
def Obligations.NoStepWritesASystemRegister : Prop :=
  ∀ (s u : State) (q : PEId), s.cfg.exceptions = .faultOutcome → step s = .next u →
    ({ u.pe q with pc := (s.pe q).pc }).SameRegisters (s.pe q)
end

