-- ==== Sys2Proof/Laws/State.lean ====
section
/-! SUPPORT. One lemma per field per update of the state. -/

namespace Sys2Proof.Machine

section setPe
variable (s : State) (p : PEId) (v : PE)

@[simp] theorem State.setPe_cfg : (s.setPe p v).cfg = s.cfg := rfl
@[simp] theorem State.setPe_cur : (s.setPe p v).cur = s.cur := rfl
@[simp] theorem State.setPe_pending : (s.setPe p v).pending = s.pending := rfl
@[simp] theorem State.setPe_mem : (s.setPe p v).mem = s.mem := rfl
@[simp] theorem State.setPe_agenda : (s.setPe p v).agenda = s.agenda := rfl
@[simp] theorem State.setPe_issues : (s.setPe p v).issues = s.issues := rfl
@[simp] theorem State.setPe_draws : (s.setPe p v).draws = s.draws := rfl
@[simp] theorem State.setPe_pes : (s.setPe p v).pes = s.pes.set p v := rfl

theorem State.pe_setPe_self (h : p < s.pes.length) : (s.setPe p v).pe p = v := by
  simp [State.pe, List.getD, h]

theorem State.pe_setPe_ne {q : PEId} (h : q ≠ p) : (s.setPe p v).pe q = s.pe q := by
  simp [State.pe, List.getD, List.getElem?_set_ne h.symm]

theorem State.setPe_of_not_lt (h : ¬ p < s.pes.length) : s.setPe p v = s := by
  simp [State.setPe, List.set_eq_of_length_le (Nat.le_of_not_lt h)]

theorem State.setPe_eq_self (h : v = s.pe p) : s.setPe p v = s := by
  by_cases hp : p < s.pes.length
  · subst h; simp [State.setPe, State.pe, List.getD, hp]
  · exact s.setPe_of_not_lt p v hp

end setPe

/-- What a PE becomes when `p` is replaced: the new value, or what it was. -/
theorem State.pe_setPe_cases (s : State) (p q : PEId) (v : PE) :
    (q = p ∧ p < s.pes.length ∧ (s.setPe p v).pe q = v) ∨ (s.setPe p v).pe q = s.pe q := by
  by_cases hp : p < s.pes.length
  · by_cases hq : q = p
    · exact .inl ⟨hq, hp, by rw [hq]; exact s.pe_setPe_self p v hp⟩
    · exact .inr (s.pe_setPe_ne p v hq)
  · exact .inr (by rw [s.setPe_of_not_lt p v hp])

theorem State.pe_mem (s : State) {p : PEId} (h : p < s.pes.length) : s.pe p ∈ s.pes := by
  simp [State.pe, List.getD, h]

theorem State.pe_of_not_lt (s : State) {p : PEId} (h : ¬ p < s.pes.length) : s.pe p = PE.fresh [] [] := by
  simp [State.pe, List.getD, List.getElem?_eq_none (Nat.le_of_not_lt h)]

section peSetPc
variable (pe : PE) (v : Word64)

@[simp] theorem PE.setPc_x : (pe.setPc v).x = pe.x := rfl
@[simp] theorem PE.setPc_pc : (pe.setPc v).pc = v := rfl
@[simp] theorem PE.setPc_pstate : (pe.setPc v).pstate = pe.pstate := rfl
@[simp] theorem PE.setPc_hcrEL2 : (pe.setPc v).hcrEL2 = pe.hcrEL2 := rfl
@[simp] theorem PE.setPc_scrEL3 : (pe.setPc v).scrEL3 = pe.scrEL3 := rfl
@[simp] theorem PE.setPc_hfgitrEL2 : (pe.setPc v).hfgitrEL2 = pe.hfgitrEL2 := rfl
@[simp] theorem PE.setPc_hcrxEL2 : (pe.setPc v).hcrxEL2 = pe.hcrxEL2 := rfl
@[simp] theorem PE.setPc_vttbrEL2vmid : (pe.setPc v).vttbrEL2vmid = pe.vttbrEL2vmid := rfl
@[simp] theorem PE.setPc_vtcrEL2vs : (pe.setPc v).vtcrEL2vs = pe.vtcrEL2vs := rfl
@[simp] theorem PE.setPc_excEL1 : (pe.setPc v).excEL1 = pe.excEL1 := rfl
@[simp] theorem PE.setPc_excEL2 : (pe.setPc v).excEL2 = pe.excEL2 := rfl
@[simp] theorem PE.setPc_excEL3 : (pe.setPc v).excEL3 = pe.excEL3 := rfl
@[simp] theorem PE.setPc_tlb : (pe.setPc v).tlb = pe.tlb := rfl
@[simp] theorem PE.setPc_inFlight : (pe.setPc v).inFlight = pe.inFlight := rfl
@[simp] theorem PE.setPc_started : (pe.setPc v).started = pe.started := rfl

end peSetPc

section peSetTlb
variable (pe : PE) (l : List TLBEntry)

@[simp] theorem PE.setTlb_x : (pe.setTlb l).x = pe.x := rfl
@[simp] theorem PE.setTlb_pc : (pe.setTlb l).pc = pe.pc := rfl
@[simp] theorem PE.setTlb_pstate : (pe.setTlb l).pstate = pe.pstate := rfl
@[simp] theorem PE.setTlb_hcrEL2 : (pe.setTlb l).hcrEL2 = pe.hcrEL2 := rfl
@[simp] theorem PE.setTlb_scrEL3 : (pe.setTlb l).scrEL3 = pe.scrEL3 := rfl
@[simp] theorem PE.setTlb_hfgitrEL2 : (pe.setTlb l).hfgitrEL2 = pe.hfgitrEL2 := rfl
@[simp] theorem PE.setTlb_hcrxEL2 : (pe.setTlb l).hcrxEL2 = pe.hcrxEL2 := rfl
@[simp] theorem PE.setTlb_vttbrEL2vmid : (pe.setTlb l).vttbrEL2vmid = pe.vttbrEL2vmid := rfl
@[simp] theorem PE.setTlb_vtcrEL2vs : (pe.setTlb l).vtcrEL2vs = pe.vtcrEL2vs := rfl
@[simp] theorem PE.setTlb_excEL1 : (pe.setTlb l).excEL1 = pe.excEL1 := rfl
@[simp] theorem PE.setTlb_excEL2 : (pe.setTlb l).excEL2 = pe.excEL2 := rfl
@[simp] theorem PE.setTlb_excEL3 : (pe.setTlb l).excEL3 = pe.excEL3 := rfl
@[simp] theorem PE.setTlb_tlb : (pe.setTlb l).tlb = l := rfl
@[simp] theorem PE.setTlb_inFlight : (pe.setTlb l).inFlight = pe.inFlight := rfl
@[simp] theorem PE.setTlb_started : (pe.setTlb l).started = pe.started := rfl

end peSetTlb

section peSetInFlight
variable (pe : PE) (l : List Access)

@[simp] theorem PE.setInFlight_x : (pe.setInFlight l).x = pe.x := rfl
@[simp] theorem PE.setInFlight_pc : (pe.setInFlight l).pc = pe.pc := rfl
@[simp] theorem PE.setInFlight_pstate : (pe.setInFlight l).pstate = pe.pstate := rfl
@[simp] theorem PE.setInFlight_hcrEL2 : (pe.setInFlight l).hcrEL2 = pe.hcrEL2 := rfl
@[simp] theorem PE.setInFlight_scrEL3 : (pe.setInFlight l).scrEL3 = pe.scrEL3 := rfl
@[simp] theorem PE.setInFlight_hfgitrEL2 : (pe.setInFlight l).hfgitrEL2 = pe.hfgitrEL2 := rfl
@[simp] theorem PE.setInFlight_hcrxEL2 : (pe.setInFlight l).hcrxEL2 = pe.hcrxEL2 := rfl
@[simp] theorem PE.setInFlight_vttbrEL2vmid : (pe.setInFlight l).vttbrEL2vmid = pe.vttbrEL2vmid := rfl
@[simp] theorem PE.setInFlight_vtcrEL2vs : (pe.setInFlight l).vtcrEL2vs = pe.vtcrEL2vs := rfl
@[simp] theorem PE.setInFlight_excEL1 : (pe.setInFlight l).excEL1 = pe.excEL1 := rfl
@[simp] theorem PE.setInFlight_excEL2 : (pe.setInFlight l).excEL2 = pe.excEL2 := rfl
@[simp] theorem PE.setInFlight_excEL3 : (pe.setInFlight l).excEL3 = pe.excEL3 := rfl
@[simp] theorem PE.setInFlight_tlb : (pe.setInFlight l).tlb = pe.tlb := rfl
@[simp] theorem PE.setInFlight_inFlight : (pe.setInFlight l).inFlight = l := rfl
@[simp] theorem PE.setInFlight_started : (pe.setInFlight l).started = pe.started := rfl

end peSetInFlight

section peAddAccess
variable (pe : PE) (e : TLBEntry) (xs : Bool)

@[simp] theorem PE.addAccess_x : (pe.addAccess e xs).x = pe.x := rfl
@[simp] theorem PE.addAccess_pc : (pe.addAccess e xs).pc = pe.pc := rfl
@[simp] theorem PE.addAccess_pstate : (pe.addAccess e xs).pstate = pe.pstate := rfl
@[simp] theorem PE.addAccess_hcrEL2 : (pe.addAccess e xs).hcrEL2 = pe.hcrEL2 := rfl
@[simp] theorem PE.addAccess_scrEL3 : (pe.addAccess e xs).scrEL3 = pe.scrEL3 := rfl
@[simp] theorem PE.addAccess_hfgitrEL2 : (pe.addAccess e xs).hfgitrEL2 = pe.hfgitrEL2 := rfl
@[simp] theorem PE.addAccess_hcrxEL2 : (pe.addAccess e xs).hcrxEL2 = pe.hcrxEL2 := rfl
@[simp] theorem PE.addAccess_vttbrEL2vmid : (pe.addAccess e xs).vttbrEL2vmid = pe.vttbrEL2vmid := rfl
@[simp] theorem PE.addAccess_vtcrEL2vs : (pe.addAccess e xs).vtcrEL2vs = pe.vtcrEL2vs := rfl
@[simp] theorem PE.addAccess_excEL1 : (pe.addAccess e xs).excEL1 = pe.excEL1 := rfl
@[simp] theorem PE.addAccess_excEL2 : (pe.addAccess e xs).excEL2 = pe.excEL2 := rfl
@[simp] theorem PE.addAccess_excEL3 : (pe.addAccess e xs).excEL3 = pe.excEL3 := rfl
@[simp] theorem PE.addAccess_tlb : (pe.addAccess e xs).tlb = pe.tlb := rfl
@[simp] theorem PE.addAccess_inFlight :
    (pe.addAccess e xs).inFlight = pe.inFlight ++ [{ entry := e, xs := xs, serial := pe.started }] := rfl
@[simp] theorem PE.addAccess_started : (pe.addAccess e xs).started = pe.started + 1 := rfl

end peAddAccess

section peEnterException
variable (cfg : Config) (target : EL) (syn : Syndrome) (pe : PE)

@[simp] theorem PE.enterException_pstate :
    (pe.enterException cfg target syn).pstate = { el := target, interruptsMasked := true } := rfl
@[simp] theorem PE.enterException_x : (pe.enterException cfg target syn).x = pe.x := by cases target <;> rfl
@[simp] theorem PE.enterException_hcrEL2 : (pe.enterException cfg target syn).hcrEL2 = pe.hcrEL2 := by cases target <;> rfl
@[simp] theorem PE.enterException_scrEL3 : (pe.enterException cfg target syn).scrEL3 = pe.scrEL3 := by cases target <;> rfl
@[simp] theorem PE.enterException_hfgitrEL2 : (pe.enterException cfg target syn).hfgitrEL2 = pe.hfgitrEL2 := by cases target <;> rfl
@[simp] theorem PE.enterException_hcrxEL2 : (pe.enterException cfg target syn).hcrxEL2 = pe.hcrxEL2 := by cases target <;> rfl
@[simp] theorem PE.enterException_vttbrEL2vmid : (pe.enterException cfg target syn).vttbrEL2vmid = pe.vttbrEL2vmid := by cases target <;> rfl
@[simp] theorem PE.enterException_vtcrEL2vs : (pe.enterException cfg target syn).vtcrEL2vs = pe.vtcrEL2vs := by cases target <;> rfl
@[simp] theorem PE.enterException_tlb : (pe.enterException cfg target syn).tlb = pe.tlb := by cases target <;> rfl
@[simp] theorem PE.enterException_inFlight : (pe.enterException cfg target syn).inFlight = pe.inFlight := by cases target <;> rfl
@[simp] theorem PE.enterException_started : (pe.enterException cfg target syn).started = pe.started := by cases target <;> rfl

end peEnterException

section setPending
variable (s : State) (ps : List Pending)

@[simp] theorem State.setPending_cfg : (s.setPending ps).cfg = s.cfg := rfl
@[simp] theorem State.setPending_pes : (s.setPending ps).pes = s.pes := rfl
@[simp] theorem State.setPending_cur : (s.setPending ps).cur = s.cur := rfl
@[simp] theorem State.setPending_pending : (s.setPending ps).pending = ps := rfl
@[simp] theorem State.setPending_mem : (s.setPending ps).mem = s.mem := rfl
@[simp] theorem State.setPending_agenda : (s.setPending ps).agenda = s.agenda := rfl
@[simp] theorem State.setPending_issues : (s.setPending ps).issues = s.issues := rfl
@[simp] theorem State.setPending_draws : (s.setPending ps).draws = s.draws := rfl
@[simp] theorem State.setPending_me : (s.setPending ps).me = s.me := rfl

@[simp] theorem State.setPending_pe (p : PEId) : (s.setPending ps).pe p = s.pe p := rfl

end setPending

section setPc
variable (s : State) (v : Word64)

@[simp] theorem State.setPc_cfg : (s.setPc v).cfg = s.cfg := rfl
@[simp] theorem State.setPc_cur : (s.setPc v).cur = s.cur := rfl
@[simp] theorem State.setPc_pending : (s.setPc v).pending = s.pending := rfl
@[simp] theorem State.setPc_mem : (s.setPc v).mem = s.mem := rfl
@[simp] theorem State.setPc_agenda : (s.setPc v).agenda = s.agenda := rfl
@[simp] theorem State.setPc_issues : (s.setPc v).issues = s.issues := rfl
@[simp] theorem State.setPc_draws : (s.setPc v).draws = s.draws := rfl
@[simp] theorem State.setPc_pes : (s.setPc v).pes = s.pes.set s.cur (s.me.setPc v) := rfl

end setPc

section addPending
variable (s : State) (op : TlbiOp)

@[simp] theorem State.addPending_cfg : (s.addPending op).cfg = s.cfg := rfl
@[simp] theorem State.addPending_cur : (s.addPending op).cur = s.cur := rfl
@[simp] theorem State.addPending_pes : (s.addPending op).pes = s.pes := rfl
@[simp] theorem State.addPending_mem : (s.addPending op).mem = s.mem := rfl
@[simp] theorem State.addPending_agenda : (s.addPending op).agenda = s.agenda := rfl
@[simp] theorem State.addPending_issues : (s.addPending op).issues = s.issues + 1 := rfl
@[simp] theorem State.addPending_draws : (s.addPending op).draws = s.draws := rfl
@[simp] theorem State.addPending_pending : (s.addPending op).pending = s.pending ++ [s.newPending op] := rfl
@[simp] theorem State.addPending_me : (s.addPending op).me = s.me := rfl
@[simp] theorem State.addPending_pe (p : PEId) : (s.addPending op).pe p = s.pe p := rfl

end addPending

section executing
variable (s : State) (p : PEId)

@[simp] theorem State.executing_cfg : (s.executing p).cfg = s.cfg := rfl
@[simp] theorem State.executing_cur : (s.executing p).cur = p := rfl
@[simp] theorem State.executing_pes : (s.executing p).pes = s.pes := rfl
@[simp] theorem State.executing_mem : (s.executing p).mem = s.mem := rfl
@[simp] theorem State.executing_pending : (s.executing p).pending = s.pending := rfl
@[simp] theorem State.executing_agenda : (s.executing p).agenda = s.agenda := rfl
@[simp] theorem State.executing_issues : (s.executing p).issues = s.issues := rfl
@[simp] theorem State.executing_draws : (s.executing p).draws = s.draws := rfl
@[simp] theorem State.executing_pe (q : PEId) : (s.executing p).pe q = s.pe q := rfl
@[simp] theorem State.executing_me : (s.executing p).me = s.pe p := rfl

end executing

section afterDraw
variable (s : State)

@[simp] theorem State.afterDraw_cfg : s.afterDraw.cfg = s.cfg := by unfold State.afterDraw; split <;> rfl
@[simp] theorem State.afterDraw_cur : s.afterDraw.cur = s.cur := by unfold State.afterDraw; split <;> rfl
@[simp] theorem State.afterDraw_pes : s.afterDraw.pes = s.pes := by unfold State.afterDraw; split <;> rfl
@[simp] theorem State.afterDraw_mem : s.afterDraw.mem = s.mem := by unfold State.afterDraw; split <;> rfl
@[simp] theorem State.afterDraw_pending : s.afterDraw.pending = s.pending := by unfold State.afterDraw; split <;> rfl
@[simp] theorem State.afterDraw_issues : s.afterDraw.issues = s.issues := by unfold State.afterDraw; split <;> rfl
@[simp] theorem State.afterDraw_pe (p : PEId) : s.afterDraw.pe p = s.pe p := by simp [State.pe]

end afterDraw

end Sys2Proof.Machine
end

