-- ==== Sys2Proof/Laws/Agents.lean ====
section
/-! SUPPORT. What the invalidation agent and the other agents do to a TLB, to the accesses in flight and to a pending record. -/

namespace Sys2Proof.Machine

/-- `Req(op, pe)` holds entries of the PE's TLB that are required to go. -/
theorem mem_requiredOn {cfg : Config} {op : TlbiOp} {pe : PE} {e : TLBEntry} (h : e ∈ requiredOn cfg op pe) :
    e ∈ pe.tlb ∧ required cfg op e = true := by
  unfold requiredOn at h
  split at h
  · cases h
  · simpa using h

/-- Outside the Secure EL1&0 exception, `Req(op, pe)` holds all of them. -/
theorem mem_requiredOn_of_required {cfg : Config} {op : TlbiOp} {pe : PE} {e : TLBEntry} (hx : eel2Excepted op pe = false)
    (he : e ∈ pe.tlb) (hr : required cfg op e = true) : e ∈ requiredOn cfg op pe := by
  unfold requiredOn
  rw [if_neg (by simp [hx])]
  simp [he, hr]

/-- What stays in a TLB after `Perform`. -/
theorem mem_tlbAfterPerform {cfg : Config} {op : TlbiOp} {extra : List TLBEntry} {pe : PE} {e : TLBEntry} :
    e ∈ tlbAfterPerform cfg op extra pe ↔ e ∈ pe.tlb ∧ e ∉ requiredOn cfg op pe ∧ e ∉ extra := by
  simp [tlbAfterPerform]

/-- Outside the Secure EL1&0 exception no entry that stays is required to go. -/
theorem required_of_mem_tlbAfterPerform {cfg : Config} {op : TlbiOp} {extra : List TLBEntry} {pe : PE} {e : TLBEntry}
    (hx : eel2Excepted op pe = false) (h : e ∈ tlbAfterPerform cfg op extra pe) : required cfg op e = false := by
  obtain ⟨h1, h2, -⟩ := mem_tlbAfterPerform.1 h
  exact Bool.eq_false_iff.2 fun hr => h2 (mem_requiredOn_of_required hx h1 hr)

@[simp] theorem Pending.markPerformed_op (pd : Pending) (p : PEId) (req : List TLBEntry) (before : Nat) :
    (pd.markPerformed p req before).op = pd.op := rfl

@[simp] theorem Pending.markPerformed_serial (pd : Pending) (p : PEId) (req : List TLBEntry) (before : Nat) :
    (pd.markPerformed p req before).serial = pd.serial := rfl

/-- Marking keeps the PEs of the record. -/
theorem Pending.map_pe_markPerformed (pd : Pending) (p : PEId) (req : List TLBEntry) (before : Nat) :
    (pd.markPerformed p req before).progress.map Progress.pe = pd.progress.map Progress.pe := by
  simp only [Pending.markPerformed, List.map_map]
  exact List.map_congr_left fun q _ => by simp only [Function.comp]; split <;> rfl

/-- What a flag of a marked record was before, or was made. -/
theorem Pending.mem_markPerformed {pd : Pending} {p : PEId} {req : List TLBEntry} {before : Nat} {q : Progress}
    (h : q ∈ (pd.markPerformed p req before).progress) :
    q ∈ pd.progress ∧ ¬ (q.pe = p ∧ q.performed = false) ∨ q = { pe := p, performed := true, required := req, before := before } := by
  obtain ⟨r, hr, rfl⟩ := List.mem_map.1 h
  by_cases hc : r.pe = p ∧ r.performed = false
  · right; obtain ⟨h1, h2⟩ := hc; simp [h1, h2]
  · left
    have : (r.pe == p && !r.performed) = false := by
      by_contra hne
      have hne := Bool.not_eq_false _ ▸ hne
      simp only [Bool.and_eq_true, beq_iff_eq, Bool.not_eq_eq_eq_not, Bool.not_true] at hne
      exact hc hne
    simp only [this]
    exact ⟨hr, hc⟩

/-- A flag that is set stays as it is. -/
theorem Pending.mem_markPerformed_of_performed {pd : Pending} {p : PEId} {req : List TLBEntry} {before : Nat} {q : Progress}
    (h : q ∈ pd.progress) (hp : q.performed = true) : q ∈ (pd.markPerformed p req before).progress :=
  List.mem_map.2 ⟨q, h, by simp [hp]⟩

/-- A record waits for a PE when it has an unset flag for it. -/
theorem Pending.awaits_iff {pd : Pending} {p : PEId} :
    pd.awaits p = true ↔ ∃ q ∈ pd.progress, q.pe = p ∧ q.performed = false := by
  simp [Pending.awaits]

/-- After marking, the record waits for that PE no more. -/
theorem Pending.awaits_markPerformed (pd : Pending) (p : PEId) (req : List TLBEntry) (before : Nat) :
    (pd.markPerformed p req before).awaits p = false := by
  refine Bool.eq_false_iff.2 fun h => ?_
  obtain ⟨q, hq, h1, h2⟩ := Pending.awaits_iff.1 h
  rcases Pending.mem_markPerformed hq with ⟨-, hn⟩ | rfl
  · exact hn ⟨h1, h2⟩
  · cases h2

/-- Marking one PE does not change whether the record waits for another. -/
theorem Pending.awaits_markPerformed_ne (pd : Pending) {p q : PEId} (req : List TLBEntry) (before : Nat) (h : q ≠ p) :
    (pd.markPerformed p req before).awaits q = pd.awaits q := by
  simp only [Pending.awaits, Pending.markPerformed, List.any_map]
  congr 1
  funext r
  simp only [Function.comp]
  split
  · rename_i hc
    simp only [Bool.and_eq_true, beq_iff_eq] at hc
    simp [hc.1, Ne.symm h]
  · rfl

/-- Marks of two PEs commute. -/
theorem Pending.markPerformed_comm (pd : Pending) {p q : PEId} (rp rq : List TLBEntry) (np nq : Nat) (h : p ≠ q) :
    (pd.markPerformed p rp np).markPerformed q rq nq = (pd.markPerformed q rq nq).markPerformed p rp np := by
  simp only [Pending.markPerformed, List.map_map, Pending.mk.injEq, true_and]
  refine List.map_congr_left fun r _ => ?_
  simp only [Function.comp]
  by_cases hp : r.pe = p
  · subst hp; by_cases hf : r.performed <;> simp [hf, h]
  · by_cases hq : r.pe = q
    · subst hq; by_cases hf : r.performed <;> simp [hf, hp]
    · simp [hp, hq]

/-- Everything `Perform` can do: nothing, or, where the record waits for the PE, the removal and the mark. -/
theorem perform_cases (k : Nat) (p : PEId) (extra : List TLBEntry) (s : State) :
    perform k p extra s = s ∨ ∃ pd, s.pending[k]? = some pd ∧ pd.awaits p = true ∧
      perform k p extra s =
        (s.setPe p ((s.pe p).setTlb (tlbAfterPerform s.cfg pd.op extra (s.pe p)))).setPending
          (s.pending.set k (pd.markPerformed p (requiredOn s.cfg pd.op (s.pe p)) (s.pe p).started)) := by
  unfold perform
  split
  · exact .inl rfl
  · split
    · exact .inr ⟨_, ‹_›, ‹_›, rfl⟩
    · exact .inl rfl

/-- `Perform` where the record waits for the PE. -/
theorem perform_of_awaits {k : Nat} {p : PEId} {s : State} {pd : Pending} (extra : List TLBEntry)
    (h : s.pending[k]? = some pd) (ha : pd.awaits p = true) :
    perform k p extra s =
      (s.setPe p ((s.pe p).setTlb (tlbAfterPerform s.cfg pd.op extra (s.pe p)))).setPending
        (s.pending.set k (pd.markPerformed p (requiredOn s.cfg pd.op (s.pe p)) (s.pe p).started)) := by
  simp [perform, h, ha]

/-- `Perform` where the record does not wait for the PE. -/
theorem perform_of_not_awaits {k : Nat} {p : PEId} {s : State} {pd : Pending} (extra : List TLBEntry)
    (h : s.pending[k]? = some pd) (ha : pd.awaits p = false) : perform k p extra s = s := by
  simp [perform, h, ha]

@[simp] theorem perform_cfg (k : Nat) (p : PEId) (extra : List TLBEntry) (s : State) :
    (perform k p extra s).cfg = s.cfg := by
  rcases perform_cases k p extra s with h | ⟨_, -, -, h⟩ <;> rw [h]; rfl

/-- Filling adds the one entry to the one TLB, if it is well formed. -/
theorem fill_cases (p : PEId) (e : TLBEntry) (s : State) :
    fill p e s = s ∨ e.wf s.cfg = true ∧ fill p e s = s.setPe p ((s.pe p).setTlb ((s.pe p).tlb.insert e)) := by
  unfold fill
  split
  · exact .inr ⟨‹_›, rfl⟩
  · exact .inl rfl

/-- An access starts with an entry of the TLB, or nothing happens. -/
theorem startAccess_cases (p : PEId) (e : TLBEntry) (xs : Bool) (s : State) :
    startAccess p e xs s = s ∨ e ∈ (s.pe p).tlb ∧
      startAccess p e xs s = s.setPe p ((s.pe p).addAccess e xs) := by
  unfold startAccess
  split
  · exact .inr ⟨List.contains_iff_mem.1 ‹_›, rfl⟩
  · exact .inl rfl

/-- Retiring drops a complete record, or nothing happens. -/
theorem retire_cases (k : Nat) (s : State) :
    retire k s = s ∨ ∃ pd, s.pending[k]? = some pd ∧ complete s pd = true ∧
      retire k s = s.setPending (s.pending.eraseIdx k) := by
  unfold retire
  split
  · exact .inl rfl
  · split
    · exact .inr ⟨_, ‹_›, ‹_›, rfl⟩
    · exact .inl rfl

/-- A record stays as the spec gives it while the configuration and the number of PEs stay and no count falls. -/
theorem Pending.wf_mono (s u : State) (hc : u.cfg = s.cfg) (hl : u.pes.length = s.pes.length)
    (hn : ∀ p, (s.pe p).started ≤ (u.pe p).started) (hi : s.issues ≤ u.issues) {pd : Pending} (h : pd.wf s) : pd.wf u := by
  obtain ⟨h0, h1, h2, h3, h4⟩ := h
  refine ⟨Nat.lt_of_lt_of_le h0 hi, hl ▸ h1, hc ▸ h2, ?_, fun q hq => ?_⟩
  · simpa only [State.domain, State.osh, hc, hl] using h3
  · obtain ⟨h5, h6, h7⟩ := h4 q hq
    exact ⟨hc ▸ h5, Nat.le_trans h6 (hn _), h7⟩

/-- A marked record is as the spec gives it, if the record was, the set it keeps is one of required entries, and the accesses
it counts have started. -/
theorem Pending.wf_markPerformed {s : State} {pd : Pending} (p : PEId) {req : List TLBEntry} {before : Nat} (h : pd.wf s)
    (hr : ∀ e ∈ req, required s.cfg pd.op e = true) (hb : before ≤ (s.pe p).started) :
    (pd.markPerformed p req before).wf s := by
  obtain ⟨h0, h1, h2, h3, h4⟩ := h
  refine ⟨h0, h1, h2, ?_, fun q hq => ?_⟩
  · rw [Pending.map_pe_markPerformed]; exact h3
  · rcases Pending.mem_markPerformed hq with ⟨hq, -⟩ | rfl
    · exact h4 q hq
    · exact ⟨hr, hb, fun hf => by cases hf⟩

/-- A new record is as the spec gives it, once its number is taken. -/
theorem State.wf_newPending {s : State} {op : TlbiOp} (h : op.wf s.cfg) (hi : op.issuer < s.pes.length) :
    (s.newPending op).wf (s.addPending op) := by
  refine ⟨Nat.lt_succ_self _, hi, h, ?_, fun q hq => ?_⟩
  · simp only [State.newPending, List.map_map, Function.comp_def, List.map_id']; rfl
  · obtain ⟨r, -, rfl⟩ := List.mem_map.1 hq
    exact ⟨fun e he => (List.not_mem_nil he).elim, Nat.zero_le _, fun _ => ⟨rfl, rfl⟩⟩

/-- Replacing a PE by one that is as the spec gives it, and that has started no fewer accesses, keeps the invariant. -/
theorem State.inv_setPe {s : State} {p : PEId} {v : PE} (h : s.Inv) (hn : (s.pe p).started ≤ v.started)
    (hv : p < s.pes.length → v.wf s.cfg) : (s.setPe p v).Inv := by
  obtain ⟨h1, h2, h3, h4, h5⟩ := h
  refine ⟨h1, by simpa using h2, fun pe hpe => ?_, fun pd hpd => ?_, h5⟩
  · by_cases hp : p < s.pes.length
    · rcases List.mem_or_eq_of_mem_set hpe with hm | rfl
      · exact h3 pe hm
      · exact hv hp
    · rw [s.setPe_of_not_lt p v hp] at hpe; exact h3 pe hpe
  · refine Pending.wf_mono s (s.setPe p v) rfl (by simp) (fun q => ?_) (Nat.le_refl _) (h4 pd hpd)
    rcases State.pe_setPe_cases s p q v with ⟨rfl, -, h⟩ | h <;> rw [h]
    exact hn

/-- Adding a record issued by a PE of the system keeps the invariant. -/
theorem State.inv_addPending {s : State} {op : TlbiOp} (h : s.Inv) (hw : op.wf s.cfg) (hi : op.issuer < s.pes.length) :
    (s.addPending op).Inv := by
  obtain ⟨h1, h2, h3, h4, h5⟩ := h
  refine ⟨h1, h2, h3, fun pd hpd => ?_, List.pairwise_append.2 ⟨h5, List.pairwise_singleton _ _, fun a ha b hb => ?_⟩⟩
  · rcases List.mem_append.1 hpd with hm | hm
    · exact Pending.wf_mono s (s.addPending op) rfl rfl (fun _ => Nat.le_refl _) (Nat.le_succ _) (h4 pd hm)
    · rw [List.mem_singleton.1 hm]; exact State.wf_newPending hw hi
  · rw [List.mem_singleton.1 hb]; exact (h4 a ha).1

/-- The accesses of a numbered list: their numbers lie in its range, their entries are those of the list. -/
theorem Access.mem_numberFrom {n : Nat} {l : List Access} {a : Access} (h : a ∈ Access.numberFrom n l) :
    n ≤ a.serial ∧ a.serial < n + l.length ∧ ∃ b ∈ l, a.entry = b.entry := by
  induction l generalizing n with
  | nil => cases h
  | cons b l ih =>
    rcases List.mem_cons.1 h with rfl | h
    · exact ⟨Nat.le_refl n, by simp, b, List.mem_cons_self, rfl⟩
    · obtain ⟨h1, h2, c, hc, he⟩ := ih h
      exact ⟨by omega, by simp only [List.length_cons]; omega, c, List.mem_cons_of_mem _ hc, he⟩

@[simp] theorem Access.length_numberFrom (n : Nat) (l : List Access) : (Access.numberFrom n l).length = l.length := by
  induction l generalizing n with
  | nil => rfl
  | cons a l ih => simp [Access.numberFrom, ih]

/-- The numbers rise. -/
theorem Access.pairwise_numberFrom (n : Nat) (l : List Access) :
    (Access.numberFrom n l).Pairwise (fun a b => a.serial < b.serial) := by
  induction l generalizing n with
  | nil => exact List.Pairwise.nil
  | cons a l ih => exact List.Pairwise.cons (fun b hb => (Access.mem_numberFrom hb).1) (ih (n + 1))

end Sys2Proof.Machine
end

