-- ==== Sys2Proof/Laws/Memory.lean ====
section
/-! SUPPORT. Memory: a read after a write, and that every memory operation keeps the canonical form. -/

namespace Sys2Proof.Machine

theorem Memory.readByte_writeByte_self (m : Memory) (a : Nat) (b : Byte) : (m.writeByte a b).readByte a = some b := by
  induction m with
  | nil => simp [Memory.writeByte, Memory.readByte]
  | cons c m ih =>
    unfold Memory.writeByte
    split
    · simp [Memory.readByte]
    · split
      · simp [Memory.readByte]
      · rename_i h; simp [Memory.readByte, Ne.symm h, ih]

theorem Memory.readByte_writeByte_ne (m : Memory) {a a' : Nat} (b : Byte) (h : a' ≠ a) :
    (m.writeByte a b).readByte a' = m.readByte a' := by
  induction m with
  | nil => simp [Memory.writeByte, Memory.readByte, h.symm]
  | cons c m ih =>
    unfold Memory.writeByte
    split
    · simp [Memory.readByte, h.symm]
    · split
      · rename_i h2; subst h2; simp [Memory.readByte, h.symm]
      · simp [Memory.readByte, ih]

/-- A cell after a write is the written one or was there before. -/
theorem Memory.mem_writeByte {m : Memory} {a : Nat} {b : Byte} {c : Host.Cell} (h : c ∈ m.writeByte a b) :
    c = (a, b) ∨ c ∈ m := by
  induction m with
  | nil => simpa [Memory.writeByte] using h
  | cons d m ih =>
    unfold Memory.writeByte at h
    split at h
    · simpa using h
    · split at h
      · rcases List.mem_cons.1 h with h | h
        · exact .inl h
        · exact .inr (List.mem_cons_of_mem _ h)
      · rcases List.mem_cons.1 h with h | h
        · exact .inr (by simp [h])
        · exact (ih h).imp_right (List.mem_cons_of_mem _)

/-- Writing a byte keeps the canonical form. -/
theorem Memory.wf_writeByte {m : Memory} (a : Nat) (b : Byte) (h : m.wf) : (m.writeByte a b).wf := by
  induction m with
  | nil => simp [Memory.writeByte, Memory.wf]
  | cons c m ih =>
    have ⟨hc, hm⟩ := List.pairwise_cons.1 h
    unfold Memory.writeByte
    split
    · rename_i hlt
      refine List.pairwise_cons.2 ⟨fun d hd => ?_, h⟩
      rcases List.mem_cons.1 hd with rfl | hd
      · exact hlt
      · exact Nat.lt_trans hlt (hc d hd)
    · split
      · rename_i heq
        exact List.pairwise_cons.2 ⟨fun d hd => by simpa [heq] using hc d hd, hm⟩
      · rename_i hlt hne
        refine List.pairwise_cons.2 ⟨fun d hd => ?_, ih hm⟩
        rcases Memory.mem_writeByte hd with rfl | hd
        · simp only; omega
        · exact hc d hd

/-- Writing a run of bytes keeps the canonical form. -/
theorem Memory.wf_writeBytes {m : Memory} (a : Nat) (bs : List Byte) (h : m.wf) : (m.writeBytes a bs).wf := by
  induction bs generalizing m a with
  | nil => exact h
  | cons b bs ih => exact ih (a + 1) (Memory.wf_writeByte a b h)

/-- Placing a program keeps the canonical form. -/
theorem Memory.wf_withFetchWord {s : State} (n w : Nat) (h : s.mem.wf) : (s.withFetchWord n w).mem.wf :=
  Memory.wf_writeBytes _ _ h

/-- The memory after reset is in the canonical form. -/
theorem Memory.wf_reset : State.reset.mem.wf := by decide

end Sys2Proof.Machine
end

