-- ==== Sys2Proof/Laws/Ops.lean ====
section
/-! SUPPORT. For each shared operation, once, everything it can do when it answers a next state; and so for `exec`. -/

namespace Sys2Proof.Machine

/-- Advancing the pc writes the pc and nothing else. -/
theorem advancePc_next {s u : State} (h : advancePc s = .next u) : ∃ v, u = s.setPc v := by
  unfold advancePc at h
  split at h
  · exact ⟨_, (Host.Outcome.next.inj h).symm⟩
  · split at h
    · exact ⟨_, (Host.Outcome.next.inj h).symm⟩
    · exact ⟨_, (Host.Outcome.next.inj h).symm⟩
    · cases h

/-- Below the top of the address space the pc advances by 4. -/
theorem advancePc_of_pcBelowTop {s : State} (h : s.PcBelowTop) : advancePc s = .next (s.setPc (s.me.pc + 4)) := by
  unfold advancePc
  exact if_pos h

/-- Advancing the pc never faults. -/
theorem advancePc_ne_fault (s : State) (f : Fault) : advancePc s ≠ .fault f := by
  unfold advancePc
  split
  · simp
  · split <;> simp

/-- Issuing adds the record of the call and writes the pc, and nothing else. -/
theorem issueTlbiVaa_next {sec : SecurityState} {reg : Regime} {vm : VmidArg} {attr : TlbiAttr} {t : Nat} {s u : State}
    (h : issueTlbiVaa sec reg vm attr t s = .next u) :
    ∃ v, u = (s.addPending (s.newOp sec reg vm attr (s.me.readX t))).setPc v := by
  unfold issueTlbiVaa at h
  split at h
  · cases h
  · exact advancePc_next h

/-- An accepted argument is issued. -/
theorem issueTlbiVaa_of_accepted {s : State} {t : Nat} (h : s.ArgumentAccepted t) (sec : SecurityState) (reg : Regime)
    (vm : VmidArg) (attr : TlbiAttr) :
    issueTlbiVaa sec reg vm attr t s = advancePc (s.addPending (s.newOp sec reg vm attr (s.me.readX t))) := by
  unfold issueTlbiVaa
  rw [if_neg (by simp [h])]

/-- Issuing never faults (40_invalidation_operation.md rule R120). -/
theorem issueTlbiVaa_ne_fault (sec : SecurityState) (reg : Regime) (vm : VmidArg) (attr : TlbiAttr) (t : Nat) (s : State)
    (f : Fault) : issueTlbiVaa sec reg vm attr t s ≠ .fault f := by
  unfold issueTlbiVaa
  split
  · simp
  · exact advancePc_ne_fault _ f

/-- A raise that answers a next state enters the handler. -/
theorem raiseUndefined_next {i : Instr} {s u : State} (h : raiseUndefined i s = .next u) :
    s.cfg.exceptions = .enterHandler ∧
      u = takeException (undefinedTarget s.cfg s.me) (undefinedSyndrome s.cfg s.me) s := by
  unfold raiseUndefined at h
  split at h
  · cases h
  · exact ⟨‹_›, (Host.Outcome.next.inj h).symm⟩

/-- A trap that answers a next state enters the handler at its target. -/
theorem raiseSystemAccessTrap_next {target : EL} {ec : BitVec 6} {i : Instr} {s u : State}
    (h : raiseSystemAccessTrap target ec i s = .next u) :
    s.cfg.exceptions = .enterHandler ∧ u = takeException target (trapSyndrome ec (encode i)) s := by
  unfold raiseSystemAccessTrap at h
  split at h
  · cases h
  · exact ⟨‹_›, (Host.Outcome.next.inj h).symm⟩

/-- EL2 is enabled only where it is implemented (10_state.md rule R33). -/
theorem haveEL2_of_el2Enabled {cfg : Config} {pe : PE} (h : el2Enabled cfg pe = true) : cfg.haveEL .el2 = true := by
  unfold el2Enabled at h
  split at h <;> exact (Bool.and_eq_true_iff.1 h).1

/-- The level an Undefined exception goes to is implemented, if the level it comes from is. -/
theorem haveEL_undefinedTarget {cfg : Config} {pe : PE} (h : cfg.haveEL pe.pstate.el = true) :
    cfg.haveEL (undefinedTarget cfg pe) = true := by
  unfold undefinedTarget
  split
  · split
    · exact haveEL2_of_el2Enabled (Bool.and_eq_true_iff.1 ‹_›).2
    · rfl
  · exact h

/-- No Undefined exception goes to EL0. -/
theorem undefinedTarget_ne_el0 {cfg : Config} {pe : PE} : undefinedTarget cfg pe ≠ .el0 := by
  unfold undefinedTarget
  split
  · split <;> decide
  · assumption

/-- The arguments the instructions pass pair up: the EL1&0 call. -/
theorem TlbiOp.wf_el10 (s : State) (attr : TlbiAttr) (xt : Word64) (sec : SecurityState)
    (h : attr = .excludeXS → s.cfg.isFeatureImplemented .xs = true) :
    (s.newOp sec .regimeEL10 (.vmid (currentVmid s.cfg s.me)) attr xt).wf s.cfg := by
  exact ⟨by simp [State.newOp], decide_eq_true (Nat.mod_lt _ (Nat.two_pow_pos _)), h⟩

/-- The arguments the instructions pass pair up: the EL2&0 call. -/
theorem TlbiOp.wf_el20 (s : State) (attr : TlbiAttr) (xt : Word64) (sec : SecurityState)
    (h : attr = .excludeXS → s.cfg.isFeatureImplemented .xs = true) :
    (s.newOp sec .regimeEL20 .vmidNone attr xt).wf s.cfg :=
  ⟨by simp [State.newOp], rfl, h⟩

/-- The three ways an instruction ends in a next state: it returns, it issues, or it enters a handler. -/
inductive Ended (i : Instr) (s u : State) : Prop
  | returned (v : Word64) (h : u = s.setPc v)
  | issued (op : TlbiOp) (v : Word64) (wf : op.wf s.cfg) (issuer : op.issuer = s.cur) (arg : op.xt = s.me.readX i.rt)
      (h : u = (s.addPending op).setPc v)
  | entered (target : EL) (syn : Syndrome) (conf : s.cfg.exceptions = .enterHandler) (notEl0 : target ≠ .el0)
      (implemented : s.cfg.haveEL s.me.pstate.el = true → s.cfg.haveEL target = true) (h : u = takeException target syn s)

theorem ended_of_undefined {i j : Instr} {s u : State} (h : raiseUndefined j s = .next u) : Ended i s u :=
  let ⟨hc, hu⟩ := raiseUndefined_next h
  .entered _ _ hc undefinedTarget_ne_el0 haveEL_undefinedTarget hu

theorem ended_of_trap {i j : Instr} {s u : State} {ec : BitVec 6} (he : el2Enabled s.cfg s.me = true)
    (h : raiseSystemAccessTrap .el2 ec j s = .next u) : Ended i s u :=
  let ⟨hc, hu⟩ := raiseSystemAccessTrap_next h
  .entered _ _ hc (by decide) (fun _ => haveEL2_of_el2Enabled he) hu

theorem ended_of_el10 {i : Instr} {attr : TlbiAttr} {s u : State}
    (hx : attr = .excludeXS → s.cfg.isFeatureImplemented .xs = true) (h : issueEl10 attr i.rt s = .next u) :
    Ended i s u :=
  let ⟨v, hu⟩ := issueTlbiVaa_next h
  .issued _ v (TlbiOp.wf_el10 s attr _ _ hx) rfl rfl hu

theorem ended_of_el20 {i : Instr} {attr : TlbiAttr} {s u : State}
    (hx : attr = .excludeXS → s.cfg.isFeatureImplemented .xs = true) (h : issueEl20 attr i.rt s = .next u) :
    Ended i s u :=
  let ⟨v, hu⟩ := issueTlbiVaa_next h
  .issued _ v (TlbiOp.wf_el20 s attr _ _ hx) rfl rfl hu

theorem ended_at_el2 {i : Instr} {attr : TlbiAttr} {s u : State}
    (hx : attr = .excludeXS → s.cfg.isFeatureImplemented .xs = true) (h : executeAtEl2 attr i.rt s = .next u) :
    Ended i s u := by
  unfold executeAtEl2 at h
  split at h
  · exact ended_of_el20 hx h
  · exact ended_of_el10 hx h

theorem ended_at_el3 {i : Instr} {attr : TlbiAttr} {s u : State}
    (hx : attr = .excludeXS → s.cfg.isFeatureImplemented .xs = true) (h : executeAtEl3 attr i.rt s = .next u) :
    Ended i s u := by
  unfold executeAtEl3 at h
  split at h <;> split at h
  · exact ended_of_el20 hx h
  · obtain ⟨v, hu⟩ := advancePc_next h; exact .returned v hu
  · exact ended_of_el10 hx h
  · obtain ⟨v, hu⟩ := advancePc_next h; exact .returned v hu

/-- Each of the three trap conditions holds only where EL2 is enabled (41_tlbi_vaale1os.md rule R133 item 3). -/
theorem el2Enabled_of_trapTtlb {cfg : Config} {pe : PE} (h : trapTtlb cfg pe = true) : el2Enabled cfg pe = true := by
  simp only [trapTtlb, Bool.and_eq_true] at h; exact h.1

theorem el2Enabled_of_trapTtlbos {cfg : Config} {pe : PE} (h : trapTtlbos cfg pe = true) : el2Enabled cfg pe = true := by
  simp only [trapTtlbos, Bool.and_eq_true] at h; exact h.1

theorem el2Enabled_of_trapFine {cfg : Config} {pe : PE} (h : trapFine cfg pe = true) : el2Enabled cfg pe = true := by
  simp only [trapFine, Bool.and_eq_true] at h; exact h.1.1.1

theorem el2Enabled_of_trapFineNxs {cfg : Config} {pe : PE} (h : trapFineNxs cfg pe = true) :
    el2Enabled cfg pe = true := by
  simp only [trapFineNxs, Bool.and_eq_true] at h; exact h.1.1.1.1.1

/-- Everything TLBI VAALE1OS can do when it answers a next state. -/
theorem execTlbiVaale1os_next {t : Nat} {s u : State} (h : execTlbiVaale1os t s = .next u) :
    Ended (.tlbiVaale1os t) s u := by
  unfold execTlbiVaale1os at h
  split at h
  · exact ended_of_undefined h
  · split at h
    · exact ended_of_undefined h
    · split at h
      · exact ended_of_trap (el2Enabled_of_trapTtlb ‹_›) h
      · split at h
        · exact ended_of_trap (el2Enabled_of_trapTtlbos ‹_›) h
        · split at h
          · exact ended_of_trap (el2Enabled_of_trapFine ‹_›) h
          · split at h
            · rename_i hF
              refine ended_of_el10 (fun _ => ?_) h
              simp only [fnxsOverride, Bool.and_eq_true] at hF
              exact hF.1.1.1
            · exact ended_of_el10 (fun hx => by cases hx) h
    · exact ended_at_el2 (fun hx => by cases hx) h
    · exact ended_at_el3 (fun hx => by cases hx) h

/-- Everything TLBI VAALE1OSNXS can do when it answers a next state. -/
theorem execTlbiVaale1osnxs_next {t : Nat} {s u : State} (h : execTlbiVaale1osnxs t s = .next u) :
    Ended (.tlbiVaale1osnxs t) s u := by
  unfold execTlbiVaale1osnxs at h
  split at h
  · exact ended_of_undefined h
  · split at h
    · exact ended_of_undefined h
    · have hx : s.cfg.isFeatureImplemented .xs = true := by simp_all
      split at h
      · exact ended_of_undefined h
      · split at h
        · exact ended_of_trap (el2Enabled_of_trapTtlb ‹_›) h
        · split at h
          · exact ended_of_trap (el2Enabled_of_trapTtlbos ‹_›) h
          · split at h
            · exact ended_of_trap (el2Enabled_of_trapFineNxs ‹_›) h
            · exact ended_of_el10 (fun _ => hx) h
      · exact ended_at_el2 (fun _ => hx) h
      · exact ended_at_el3 (fun _ => hx) h

/-- Everything an instruction can do when it answers a next state. -/
theorem exec_next {i : Instr} {s u : State} (h : exec i s = .next u) : Ended i s u := by
  cases i with
  | tlbiVaale1os t => exact execTlbiVaale1os_next h
  | tlbiVaale1osnxs t => exact execTlbiVaale1osnxs_next h

/-! Where an instruction ends, by the rows of its decision table. -/

/-- On its causes, Undefined is what an instruction raises. -/
theorem exec_of_undefinedCause {i : Instr} {s : State} (h : s.UndefinedCause i) : exec i s = raiseUndefined i s := by
  cases i with
  | tlbiVaale1os t =>
    rcases h with h | ⟨h, -⟩ | h
    · simp [exec, execTlbiVaale1os, Config.isFeatureImplemented, h]
    · cases h
    · simp [exec, execTlbiVaale1os, h]
  | tlbiVaale1osnxs t =>
    rcases h with h | ⟨-, h⟩ | h
    · simp [exec, execTlbiVaale1osnxs, Config.isFeatureImplemented, h]
    · simp [exec, execTlbiVaale1osnxs, Config.isFeatureImplemented, h]
    · simp [exec, execTlbiVaale1osnxs, h]

/-- On its causes, the trap to EL2 is what an instruction raises. -/
theorem exec_of_trapCause {i : Instr} {s : State} (h : s.TrapCause i) :
    exec i s = raiseSystemAccessTrap .el2 0x18 i s := by
  obtain ⟨hu, hl, ht⟩ := h
  cases i with
  | tlbiVaale1os t =>
    have h1 : s.cfg.featTlbios = true := by simpa using fun h => hu (.inl h)
    rcases ht with h | h | h
    · simp [exec, execTlbiVaale1os, Config.isFeatureImplemented, h1, hl, h]
    · simp [exec, execTlbiVaale1os, Config.isFeatureImplemented, h1, hl, h]
    · have h : trapFine s.cfg s.me = true := h
      simp [exec, execTlbiVaale1os, Config.isFeatureImplemented, h1, hl, h]
  | tlbiVaale1osnxs t =>
    have h1 : s.cfg.featTlbios = true := by simpa using fun h => hu (.inl h)
    have h2 : s.cfg.featXs = true := by simpa using fun h => hu (.inr (.inl ⟨rfl, h⟩))
    rcases ht with h | h | h
    · simp [exec, execTlbiVaale1osnxs, Config.isFeatureImplemented, h1, h2, hl, h]
    · simp [exec, execTlbiVaale1osnxs, Config.isFeatureImplemented, h1, h2, hl, h]
    · have h : trapFineNxs s.cfg s.me = true := h
      simp [exec, execTlbiVaale1osnxs, Config.isFeatureImplemented, h1, h2, hl, h]

/-- Where an instruction raises nothing and returns, only the pc advances. -/
theorem exec_of_returnsSilently {i : Instr} {s : State} (hu : ¬ s.UndefinedCause i) (h : s.ReturnsSilently) :
    exec i s = advancePc s := by
  obtain ⟨hl, hv⟩ := h
  have h1 : s.cfg.featTlbios = true := by simpa using fun h => hu (.inl h)
  have key : ∀ attr t, executeAtEl3 attr t s = advancePc s := by
    intro attr t
    unfold executeAtEl3
    by_cases hh : el0IsInHost s.cfg s.me = true
    · rw [if_pos (show s.TargetsHost from ⟨by rw [hl]; decide, hh⟩)] at hv
      simp [hh, hv]
    · rw [if_neg (fun hc : s.TargetsHost => hh hc.2)] at hv
      simp [hh, hv]
  cases i with
  | tlbiVaale1os t => simp [exec, execTlbiVaale1os, Config.isFeatureImplemented, h1, hl, key]
  | tlbiVaale1osnxs t =>
    have h2 : s.cfg.featXs = true := by simpa using fun h => hu (.inr (.inl ⟨rfl, h⟩))
    simp [exec, execTlbiVaale1osnxs, Config.isFeatureImplemented, h1, h2, hl, key]

/-- Where an instruction issues, it makes its call and the pc advances, or `res0_policy` refuses its argument. -/
theorem exec_of_issues {i : Instr} {s : State} (h : s.Issues i) :
    exec i s = if res0Refused s.cfg (s.me.readX i.rt) then .refused (.res0NotZero (s.me.readX i.rt))
      else advancePc (s.addPending (s.callOf i)) := by
  obtain ⟨hu, ht, hr⟩ := h
  have h1 : s.cfg.featTlbios = true := by simpa using fun h => hu (.inl h)
  have h0 : s.me.pstate.el ≠ .el0 := fun h => hu (.inr (.inr h))
  have host : s.me.pstate.el ≠ .el1 → el0IsInHost s.cfg s.me = true → s.TargetsHost := fun a b => ⟨a, b⟩
  have guest : ¬ el0IsInHost s.cfg s.me = true → ¬ s.TargetsHost := fun a b => a b.2
  have e2 : s.me.pstate.el = .el2 → ∀ attr, executeAtEl2 attr i.rt s =
      if s.TargetsHost then issueEl20 attr i.rt s else issueEl10 attr i.rt s := by
    intro hl attr
    unfold executeAtEl2
    by_cases hh : el0IsInHost s.cfg s.me = true
    · rw [if_pos hh, if_pos (host (by rw [hl]; decide) hh)]
    · rw [if_neg hh, if_neg (guest hh)]
  have e3 : s.me.pstate.el = .el3 → ∀ attr, executeAtEl3 attr i.rt s =
      if s.TargetsHost then issueEl20 attr i.rt s else issueEl10 attr i.rt s := by
    intro hl attr
    have hv : securityStateUsable s.cfg (if s.TargetsHost then .el2 else .el1) s.me = true := by
      by_contra hc; exact hr ⟨hl, by simpa using hc⟩
    unfold executeAtEl3
    by_cases hh : el0IsInHost s.cfg s.me = true
    · rw [if_pos (host (by rw [hl]; decide) hh)] at hv ⊢; rw [if_pos hh, if_pos hv]
    · rw [if_neg (guest hh)] at hv ⊢; rw [if_neg hh, if_pos hv]
  have hc : ∀ attr, s.callAttr i = attr → (if s.TargetsHost then issueEl20 attr i.rt s else issueEl10 attr i.rt s) =
      if res0Refused s.cfg (s.me.readX i.rt) then .refused (.res0NotZero (s.me.readX i.rt))
      else advancePc (s.addPending (s.callOf i)) := by
    rintro attr rfl
    unfold State.callOf
    split <;> rfl
  have nohost : s.me.pstate.el = .el1 → ¬ s.TargetsHost := fun hl hh => hh.1 hl
  cases i with
  | tlbiVaale1os t =>
    have ca : s.callAttr (.tlbiVaale1os t) = if decide (s.me.pstate.el = .el1) && fnxsOverride s.cfg s.me then .excludeXS else .allAttr := rfl
    rw [show exec (.tlbiVaale1os t) s = execTlbiVaale1os t s from rfl]
    unfold execTlbiVaale1os
    rw [if_neg (by simp [Config.isFeatureImplemented, h1])]
    cases hl : s.me.pstate.el with
    | el0 => exact (h0 hl).elim
    | el1 =>
      have t1 : trapTtlb s.cfg s.me = false := by simpa using fun h => ht ⟨hu, hl, .inl h⟩
      have t2 : trapTtlbos s.cfg s.me = false := by simpa using fun h => ht ⟨hu, hl, .inr (.inl h)⟩
      have t3 : trapFine s.cfg s.me = false := Bool.eq_false_iff.2 fun h => ht ⟨hu, hl, .inr (.inr h)⟩
      simp only [t1, t2, t3, Bool.false_eq_true, if_false]
      rw [← hc _ rfl, if_neg (nohost hl), ca]
      simp only [hl, decide_true, Bool.true_and, Instr.rt]
      split <;> rfl
    | el2 => exact (e2 hl _).trans (hc _ (by simp [ca, hl]))
    | el3 => exact (e3 hl _).trans (hc _ (by simp [ca, hl]))
  | tlbiVaale1osnxs t =>
    have h2 : s.cfg.featXs = true := by simpa using fun h => hu (.inr (.inl ⟨rfl, h⟩))
    have ca : s.callAttr (.tlbiVaale1osnxs t) = .excludeXS := rfl
    rw [show exec (.tlbiVaale1osnxs t) s = execTlbiVaale1osnxs t s from rfl]
    unfold execTlbiVaale1osnxs
    rw [if_neg (by simp [Config.isFeatureImplemented, h1]), if_neg (by simp [Config.isFeatureImplemented, h2])]
    cases hl : s.me.pstate.el with
    | el0 => exact (h0 hl).elim
    | el1 =>
      have t1 : trapTtlb s.cfg s.me = false := by simpa using fun h => ht ⟨hu, hl, .inl h⟩
      have t2 : trapTtlbos s.cfg s.me = false := by simpa using fun h => ht ⟨hu, hl, .inr (.inl h)⟩
      have t3 : trapFineNxs s.cfg s.me = false := Bool.eq_false_iff.2 fun h => ht ⟨hu, hl, .inr (.inr h)⟩
      simp only [t1, t2, t3, Bool.false_eq_true, if_false]
      rw [← hc _ rfl, if_neg (nohost hl), ca]; rfl
    | el2 => exact (e2 hl _).trans (hc _ ca)
    | el3 => exact (e3 hl _).trans (hc _ ca)

/-- What one event does when it answers a next state: an instruction is executed, or an agent acts, or nothing happens. -/
inductive Happened (s u : State) : Event → Prop
  | executed (p : PEId) (i : Instr) (hp : p < s.pes.length) (h : Ended i (s.executing p) u) : Happened s u (.execute p)
  | noSuchPe (p : PEId) (hp : ¬ p < s.pes.length) (h : u = s) : Happened s u (.execute p)
  | performed (k : Nat) (p : PEId) (extra : List TLBEntry) (h : u = perform k p extra s) : Happened s u (.perform k p extra)
  | filled (p : PEId) (e : TLBEntry) (h : u = fill p e s) : Happened s u (.fill p e)
  | evicted (p : PEId) (e : TLBEntry) (h : u = evict p e s) : Happened s u (.evict p e)
  | started (p : PEId) (e : TLBEntry) (xs : Bool) (h : u = startAccess p e xs s) : Happened s u (.startAccess p e xs)
  | finished (p : PEId) (k : Nat) (h : u = finishAccess p k s) : Happened s u (.finishAccess p k)
  | retired (k : Nat) (h : u = retire k s) : Happened s u (.retire k)

/-- A fetch and execution that answers a next state executed some instruction. -/
theorem fetchAndExec_next {s u : State} (h : fetchAndExec s = .next u) : ∃ i, exec i s = .next u := by
  unfold fetchAndExec at h
  split at h
  · cases h
  · split at h
    · exact ⟨_, h⟩
    · cases h

/-- Everything one step can do when it answers a next state. -/
theorem step_next {s u : State} (h : step s = .next u) : Happened s.afterDraw u s.nextEvent := by
  unfold step at h
  generalize s.nextEvent = ev at h ⊢
  cases ev <;> simp only [runEvent] at h
  case execute p =>
    split at h
    · obtain ⟨i, hi⟩ := fetchAndExec_next h
      exact .executed p i ‹_› (exec_next hi)
    · exact .noSuchPe p ‹_› (Host.Outcome.next.inj h).symm
  case perform k p extra => exact .performed k p extra (Host.Outcome.next.inj h).symm
  case fill p e => exact .filled p e (Host.Outcome.next.inj h).symm
  case evict p e => exact .evicted p e (Host.Outcome.next.inj h).symm
  case startAccess p e xs => exact .started p e xs (Host.Outcome.next.inj h).symm
  case finishAccess p k => exact .finished p k (Host.Outcome.next.inj h).symm
  case retire k => exact .retired k (Host.Outcome.next.inj h).symm

end Sys2Proof.Machine
end

