-- ==== Sys2Proof/Laws/PerInstr.lean ====
section
/-! SUPPORT. Facts about every instruction as syntax, one lemma per constructor. -/

namespace Sys2Proof.Laws.FixedBits

/-- The 27 bits above `Rt` in an instruction's word are those of its row of the opcode table (30_encoding.md rules R73,
R74). -/
def Statement (i : Instr) : Prop :=
  (encode i).extractLsb' 5 27 = match i with
    | .tlbiVaale1os _ => 111690767#27
    | .tlbiVaale1osnxs _ => 111690895#27

theorem tlbiVaale1os (t : Nat) : Statement (.tlbiVaale1os t) := by
  simp only [Statement, encode, wordOf, fieldsOfInstr]
  exact BitVec.extractLsb'_append_eq_left

theorem tlbiVaale1osnxs (t : Nat) : Statement (.tlbiVaale1osnxs t) := by
  simp only [Statement, encode, wordOf, fieldsOfInstr]
  exact BitVec.extractLsb'_append_eq_left

end Sys2Proof.Laws.FixedBits
end

