-- ==== Sys2Proof/Tests/Slice0.lean ====
section
/-! SUPPORT. The model's own tests. Expected values are those of spec/95_test_vectors.md (its groups V1 to V7, P1 to P5) or are
written out from the rule a test names. The theorems named witness_... show a state and operands that meet the hypotheses of the
obligation they name. -/

namespace Sys2Proof.Tests

open Sys2Proof Sys2Proof.Machine

/-! ### Small systems -/

/-- The common configuration of 95_test_vectors.md section 3, with the argument's reserved bits ignored. -/
def cfg0 : Config where
  featTlbios := true
  featXs := true
  featD128 := false
  featRme := false
  featLpa2 := false
  featFgt := false
  featHcx := false
  ttlImplemented := true
  haveEL3 := false
  haveEL2 := false
  osh := [(0, 1), (1, 0)]
  vmidWidth := 16
  res0Policy := .ignore
  pcWrap := .wrap
  combinedCountsAsStage1 := true
  helpers := .reference
  exceptions := .faultOutcome
  featSel2 := false
  featVhe := false
  featVmid16 := false
  el2UsingAArch64 := true
  secureOnly := false

/-- The same with EL2 and no EL3, every feature but FEAT_RME: `EL2Enabled()` and `IsHCRXEL2Enabled()` are then true. -/
def cfg2 : Config :=
  { cfg0 with haveEL2 := true, featFgt := true, featHcx := true, featVhe := true, featSel2 := true, featVmid16 := true }

/-- The same with EL3 too. -/
def cfg3 : Config := { cfg2 with haveEL3 := true }

/-- With FEAT_RME. -/
def cfg3r : Config := { cfg3 with featRme := true }

/-- A PE at an Exception level, its pc at 0x80000. -/
def peAt (el : EL) : PE :=
  { PE.fresh [] [] with pc := 0x80000, pstate := { el := el, interruptsMasked := false } }

/-- A PE with a register set. -/
def withX (pe : PE) (t : Fin 31) (v : Word64) : PE := { pe with x := pe.x.set t v }

/-- Two PEs, the first executing. -/
def sys (cfg : Config) (pe : PE) : State where
  cfg := cfg
  pes := [pe, peAt .el1]
  cur := 0
  pending := []
  issues := 0
  mem := []
  agenda := []
  draws := 0

def hcr (pe : PE) (ttlb ttlbos e2h tge : Bool) : PE :=
  { pe with hcrEL2 := { ttlb := ttlb, ttlbos := ttlbos, e2h := e2h, tge := tge } }

def scr (pe : PE) (ns nse eel2 fgten hxen : Bool) : PE :=
  { pe with scrEL3 := { ns := ns, nse := nse, eel2 := eel2, fgten := fgten, hxen := hxen } }

def hfg (pe : PE) : PE := { pe with hfgitrEL2 := { tlbivaale1os := true } }

def hcrx (pe : PE) (fnxs fgtnxs : Bool) : PE := { pe with hcrxEL2 := { fnxs := fnxs, fgtnxs := fgtnxs } }

/-- A host at EL2 or EL3: `HCR_EL2.{E2H, TGE}` is {1, 1}. -/
def host (pe : PE) : PE := hcr pe false false true true

/-- What an outcome shows: the rows of 41_tlbi_vaale1os.md rule R132 name no more. -/
inductive Shown where
  | undefined
  | trap
  | issue (security : SecurityState) (regime : Regime) (vmid : VmidArg) (attr : TlbiAttr)
  | returned
  | stopped
  deriving DecidableEq, Repr

def shown : Host.Outcome State Fault Refusal → Shown
  | .next u =>
    match u.pending with
    | [] => .returned
    | pd :: _ => .issue pd.op.security pd.op.regime pd.op.vmid pd.op.attr
  | .fault (.undefined _) => .undefined
  | .fault (.systemAccessTrap _ _ _) => .trap
  | .fault _ => .stopped
  | .refused _ => .stopped

def base (cfg : Config) (pe : PE) : Shown := shown (exec (.tlbiVaale1os 3) (sys cfg pe))

def nxs (cfg : Config) (pe : PE) : Shown := shown (exec (.tlbiVaale1osnxs 3) (sys cfg pe))

/-! ### Syntax and encoding -/

/-- A register number above 31 is ill formed (10_state.md rule R21). -/
theorem test_wellFormed :
    WellFormed (.tlbiVaale1os 31) = true ∧ WellFormed (.tlbiVaale1os 32) = false ∧
      WellFormed (.tlbiVaale1osnxs 31) = true ∧ WellFormed (.tlbiVaale1osnxs 32) = false := by decide

/-- V1: the two rows, bit by bit as rules R71 and R72 give them. -/
theorem test_decode_base : decodeWord 0b11010101000010001000000111100011#32 = some (.tlbiVaale1os 3) := by decide

theorem test_decode_nxs : decodeWord 0b11010101000010001001000111110001#32 = some (.tlbiVaale1osnxs 17) := by decide

/-- V1: the bytes in memory order, and the encoder's word. -/
theorem test_decode_bytes :
    decodeBytes [0xE3, 0x81, 0x08, 0xD5] = .instr (.tlbiVaale1os 3) [] ∧
      decodeBytes [0xFF, 0x91, 0x08, 0xD5, 0x00] = .instr (.tlbiVaale1osnxs 31) [0x00] ∧
      decodeBytes [0xE3, 0x81, 0x08] = .tooShort ∧
      encode (.tlbiVaale1os 30) = 0xD50881FE#32 ∧ encode (.tlbiVaale1osnxs 0) = 0xD50891E0#32 := by decide

/-- V1: words one field away from a specified point (rule R89). -/
theorem test_decode_neighbours :
    [0xD50881C0#32, 0xD50883E0#32, 0xD50882E0#32, 0xD52881E0#32, 0xD508A1E0#32, 0xD50C81E0#32, 0xD50081E0#32].map
      decodeWord = List.replicate 7 none := by decide

theorem test_decodeTableWord :
    decodeTableWord 32 0xD50881E0 = some (.tlbiVaale1os 0) ∧ decodeTableWord 32 0xD50891FF = some (.tlbiVaale1osnxs 31) := by
  decide

/-! ### The argument -/

/-- V2.1, V2.4, V2.8: the fields of the argument. -/
theorem test_argument_fields :
    (ttlRaw 0x00005000000ABCDE, va 0x00005000000ABCDE) = (0b0101, 0x00000000ABCDE000) ∧
      (res0Hi 0xFFFFFFFFFFFFFFFF, ttlRaw 0xFFFFFFFFFFFFFFFF, va 0xFFFFFFFFFFFFFFFF) =
        (0xFFFF, 0b1111, 0x00FFFFFFFFFFF000) ∧
      (ttlRaw 0x0000B00000040003, vaField 0x0000B00000040003, va 0x0000B00000040003) =
        (0b1011, 0x00000040003, 0x0000000040003000) := by decide

/-- R77, R79, R81: which reserved bits are not zero. -/
theorem test_res0 :
    res0NonZero cfg0 0x0001000000000000 = true ∧ res0NonZero cfg0 0x0000100000000000 = true ∧
      res0NonZero cfg0 0x0000800000000003 = false ∧
      res0NonZero { cfg0 with ttlImplemented := false } 0x0000400000000000 = true ∧
      res0NonZero { cfg0 with ttlImplemented := false } 0x00000FFFFFFFFFFF = false := by decide

/-! ### Which entries must go -/

/-- `E0` of V4. -/
def e0 : TLBEntry where
  stage := .stage1
  descBits := .bits64
  finalLevel := true
  level := 3
  granule := .g4KB
  regime := .regimeEL10
  security := .nonSecure
  vmid := 5
  asid := 7
  global := false
  vaBase := 0x00000000ABCDE000
  log2Size := 12

/-- `OP0` of V4. -/
def op0 : TlbiOp where
  issuer := 0
  security := .nonSecure
  regime := .regimeEL10
  vmid := .vmid 5
  shareability := .osh
  level := .last
  attr := .allAttr
  xt := 0x00000000000ABCDE
  el2Enabled := true
  eel2 := false

def opX (xt : Word64) : TlbiOp := { op0 with xt := xt }

def e128 : TLBEntry := { e0 with descBits := .bits128 }

/-- V4.1 to V4.11: the type of the entry. -/
theorem test_required_type :
    required cfg0 op0 e0 = true ∧ required cfg0 op0 { e0 with asid := 99, global := true } = true ∧
      required cfg0 op0 { e0 with stage := .other } = false ∧ required cfg0 op0 { e0 with finalLevel := false } = false ∧
      required cfg0 op0 e128 = false ∧ required { cfg0 with featD128 := true } op0 e128 = true ∧
      required { cfg0 with featD128 := true } (opX 0x00007000000ABCDE) e128 = false ∧
      required { cfg0 with featD128 := true } (opX 0x00008000000ABCDE) e128 = false ∧
      required cfg0 (opX 0x00008000000ABCDE) e0 = true ∧
      required { cfg0 with featD128 := true, ttlImplemented := false } (opX 0x00008000000ABCDE) e128 = true := by decide

/-- V4.12 to V4.17: regime, Security state, VMID. -/
theorem test_required_tags :
    required cfg0 op0 { e0 with regime := .regimeEL20 } = false ∧ required cfg0 op0 { e0 with security := .secure } = false ∧
      required cfg0 op0 { e0 with vmid := 6 } = false ∧
      required cfg0 { op0 with el2Enabled := false } { e0 with vmid := 6 } = true ∧
      required cfg0 { op0 with regime := .regimeEL20, vmid := .vmidNone } { e0 with regime := .regimeEL20, vmid := 6 } = true ∧
      required cfg0 { op0 with regime := .regimeEL20, vmid := .vmidNone } e0 = false := by decide

/-- V4.19 to V4.25 and V4.35, V4.36: the hint. -/
theorem test_required_hint :
    required cfg0 (opX 0x00006000000ABCDE) e0 = false ∧ required cfg0 (opX 0x0000B000000ABCDE) e0 = false ∧
      required cfg0 (opX 0x00004000000ABCDE) e0 = true ∧
      required { cfg0 with featLpa2 := true } (opX 0x00004000000ABCDE) e0 = false ∧
      required { cfg0 with featLpa2 := true } (opX 0x00004000000ABCDE)
        { e0 with level := 0, log2Size := 39, vaBase := 0 } = true ∧
      required cfg0 (opX 0x00006000000ABCDE) { e0 with level := 2, log2Size := 21, vaBase := 0xABC00000 } = true ∧
      required cfg0 (opX 0x0000900000040000)
        { e0 with granule := .g16KB, level := 2, log2Size := 25, vaBase := 0x40000000 } = true ∧
      required { cfg0 with featLpa2 := true } (opX 0x0000900000040000)
        { e0 with granule := .g16KB, level := 2, log2Size := 25, vaBase := 0x40000000 } = false := by decide

/-- V4.18, V4.26 to V4.31, V4.34, V4.37: the address. -/
theorem test_required_address :
    required cfg0 (opX 0x00000000000ABCDF) e0 = false ∧
      required cfg0 (opX 0x00000000000ABE00) { e0 with level := 2, log2Size := 21, vaBase := 0xABC00000 } = false ∧
      required cfg0 (opX 0x0000B00000040003) { e0 with granule := .g16KB, log2Size := 14, vaBase := 0x40000000 } = true ∧
      required cfg0 (opX 0x0000B00000040004) { e0 with granule := .g16KB, log2Size := 14, vaBase := 0x40000000 } = false ∧
      required cfg0 (opX 0x0000F0000012345F) { e0 with granule := .g64KB, log2Size := 16, vaBase := 0x123450000 } = true ∧
      required cfg0 (opX 0x0000F0000012346F) { e0 with granule := .g64KB, log2Size := 16, vaBase := 0x123450000 } = false ∧
      required cfg0 op0 { e0 with vaBase := 0xFF000000ABCDE000 } = true ∧ required cfg0 (opX 0) e0 = false ∧
      required cfg0 (opX 0x00000001000ABCDE) e0 = false := by decide

/-! ### The decision trees, a row each: these are the witnesses of the two decision table obligations -/

/-- V5: every row of rule R132, by its number there. -/
theorem test_base_rows :
    base { cfg2 with featTlbios := false } (hcr (peAt .el1) true false false false) = .undefined ∧
      base cfg2 (hcr (peAt .el0) true false false false) = .undefined ∧
      base cfg2 (hcr (peAt .el1) true false false false) = .trap ∧
      base cfg2 (hcr (peAt .el1) false true false false) = .trap ∧
      base cfg2 (hfg (peAt .el1)) = .trap ∧
      base cfg2 (hcrx (peAt .el1) true false) = .issue .nonSecure .regimeEL10 (.vmid 0) .excludeXS ∧
      base cfg0 (hfg (hcr (peAt .el1) true true false false)) =
        .issue .nonSecure .regimeEL10 (.vmid (Config.freeVmid cfg0 (hfg (hcr (peAt .el1) true true false false)) % 2 ^ 16)) .allAttr ∧
      base cfg2 (hcrx (hcr (peAt .el2) true false true true) true false) = .issue .nonSecure .regimeEL20 .vmidNone .allAttr ∧
      base cfg2 (hfg (hcr (peAt .el2) true false false false)) = .issue .nonSecure .regimeEL10 (.vmid 0) .allAttr ∧
      base cfg3r (scr (host (peAt .el3)) false true true false false) = .returned ∧
      base cfg3r (scr (host (peAt .el3)) true false false false false) = .issue .nonSecure .regimeEL20 .vmidNone .allAttr ∧
      base cfg3r (scr (peAt .el3) false true false false false) = .returned ∧
      base cfg3r (scr (peAt .el3) true true false false false) = .issue .realm .regimeEL10 (.vmid 0) .allAttr :=
  ⟨by decide, by decide, by decide, by decide, by decide, by decide, rfl, by decide, by decide, by decide, by decide, by decide,
    by decide⟩

/-- V5.9, V5.10, V5.14: the fine-grained trap and the override through EL3's enables. -/
theorem test_base_enables :
    base cfg3 (hfg (scr (peAt .el1) true false false false false)) = .issue .nonSecure .regimeEL10 (.vmid 0) .allAttr ∧
      base cfg3 (hfg (scr (peAt .el1) true false false true false)) = .trap ∧
      base cfg3 (hcrx (scr (peAt .el1) true false false false true) true false) =
        .issue .nonSecure .regimeEL10 (.vmid 0) .excludeXS ∧
      base cfg3 (hcrx (scr (peAt .el1) true false false false false) true false) =
        .issue .nonSecure .regimeEL10 (.vmid 0) .allAttr := by decide

/-- V6: every row of rule R142, by its number there. -/
theorem test_nxs_rows :
    nxs { cfg2 with featTlbios := false } (peAt .el3) = .undefined ∧
      nxs { cfg2 with featXs := false } (hcr (peAt .el1) true false false false) = .undefined ∧
      nxs cfg2 (peAt .el0) = .undefined ∧
      nxs cfg2 (hcr (peAt .el1) true false false false) = .trap ∧
      nxs cfg2 (hcr (peAt .el1) false true false false) = .trap ∧
      nxs cfg2 (hfg (peAt .el1)) = .trap ∧
      nxs cfg2 (hcrx (hfg (peAt .el1)) false true) = .issue .nonSecure .regimeEL10 (.vmid 0) .excludeXS ∧
      nxs cfg2 (host (peAt .el2)) = .issue .nonSecure .regimeEL20 .vmidNone .excludeXS ∧
      nxs cfg2 (peAt .el2) = .issue .nonSecure .regimeEL10 (.vmid 0) .excludeXS ∧
      nxs cfg3r (scr (host (peAt .el3)) false true true false false) = .returned ∧
      nxs cfg3r (scr (host (peAt .el3)) true false false false false) = .issue .nonSecure .regimeEL20 .vmidNone .excludeXS ∧
      nxs cfg3r (scr (peAt .el3) false true false false false) = .returned ∧
      nxs cfg3r (scr (peAt .el3) true true false false false) = .issue .realm .regimeEL10 (.vmid 0) .excludeXS := by decide

/-- V6.9, V6.10: `FGTnXS` is not consulted when HCRX_EL2 is not enabled, and without FEAT_HCX the fine-grained trap never takes
the nXS form. -/
theorem test_nxs_fine_trap :
    nxs cfg3 (hcrx (hfg (scr (peAt .el1) true false false true false)) false true) = .trap ∧
      nxs { cfg2 with featHcx := false } (hfg (peAt .el1)) = .issue .nonSecure .regimeEL10 (.vmid 0) .excludeXS ∧
      base { cfg2 with featHcx := false } (hfg (peAt .el1)) = .trap := by decide

/-! ### Witnesses: encoding, step and fetch -/

theorem witness_EncodedWordsAreTheTableWords : (0 : Nat) ≤ 31 ∧ (31 : Nat) ≤ 31 := by decide

theorem witness_DecodeOfEncodeIsTheInstruction :
    WellFormed (.tlbiVaale1os 31) = true ∧ WellFormed (.tlbiVaale1osnxs 0) = true := by decide

theorem witness_EncodeOfDecodeIsTheWord : decodeWord 0xD50891FF#32 = some (.tlbiVaale1osnxs 31) := by decide

/-- A system whose first PE's next instruction word is `w`, and whose turn it is. -/
def aboutToRun (cfg : Config) (pe : PE) (w : InstrWord) : State := placeAtPc (sys cfg pe) (bytesOfWord w)

theorem witness_OtherWordsAreNotSpecifiedHere :
    fetchWord (aboutToRun cfg0 (peAt .el1) 0xD50881C0#32).mem (aboutToRun cfg0 (peAt .el1) 0xD50881C0#32).me.pc.toNat =
        .ok 0xD50881C0#32 ∧
      0xD50881C0#32 &&& 0xFFFFFFE0#32 ≠ 0xD50881E0#32 ∧ 0xD50881C0#32 &&& 0xFFFFFFE0#32 ≠ 0xD50891E0#32 :=
  ⟨rfl, by decide, by decide⟩

theorem witness_StepRunsTheDecodedInstruction :
    let s := aboutToRun cfg0 (peAt .el1) 0xD50881E3#32
    s.nextEvent = .execute 0 ∧ 0 < s.pes.length ∧ (s.pe 0).pc.toNat + 3 < 2 ^ 64 ∧
      s.mem.readByte (s.pe 0).pc.toNat = some 0xE3 ∧ s.mem.readByte ((s.pe 0).pc.toNat + 1) = some 0x81 ∧
      s.mem.readByte ((s.pe 0).pc.toNat + 2) = some 0x08 ∧ s.mem.readByte ((s.pe 0).pc.toNat + 3) = some 0xD5 ∧
      decodeBytes [0xE3, 0x81, 0x08, 0xD5] = .instr (.tlbiVaale1os 3) [] := by decide

/-- No byte written, and only the first three. -/
theorem witness_FetchOfAnUnwrittenByteFaults :
    let s : State := { sys cfg0 (peAt .el1) with agenda := [.execute 0] }
    let s' : State := { s with mem := [(0x80000, 0xE3), (0x80001, 0x81), (0x80002, 0x08)] }
    (s.nextEvent = .execute 0 ∧ 0 < s.pes.length ∧ (s.pe 0).pc.toNat + 0 < 2 ^ 64 ∧
        s.mem.readByte ((s.pe 0).pc.toNat + 0) = none) ∧
      (s'.nextEvent = .execute 0 ∧ 0 < s'.pes.length ∧ (s'.pe 0).pc.toNat + 3 < 2 ^ 64 ∧
        (∀ j, j < 3 → ∃ b, s'.mem.readByte ((s'.pe 0).pc.toNat + j) = some b) ∧
        s'.mem.readByte ((s'.pe 0).pc.toNat + 3) = none) := by
  refine ⟨by decide, by decide, by decide, by decide, fun j hj => ?_, by decide⟩
  match j, hj with
  | 0, _ => exact ⟨_, rfl⟩
  | 1, _ => exact ⟨_, rfl⟩
  | 2, _ => exact ⟨_, rfl⟩

theorem witness_PlacedInstructionRunsNext :
    WellFormed (.tlbiVaale1osnxs 4) = true ∧ (sys cfg0 (peAt .el1)).cur < (sys cfg0 (peAt .el1)).pes.length ∧
      (sys cfg0 (peAt .el1)).me.pc.toNat + 3 < 2 ^ 64 := by decide

/-- P1, its first instruction: one record for two PEs, performed nowhere, and the pc at the next word. -/
theorem test_step_p1 :
    shown (step (aboutToRun cfg0 (withX (peAt .el1) 3 0x00007000000ABCDE) 0xD50881E3#32)) =
        .issue .nonSecure .regimeEL10
          (.vmid (Config.freeVmid cfg0 (withX (peAt .el1) 3 0x00007000000ABCDE) % 2 ^ 16)) .allAttr ∧
      (match step (aboutToRun cfg0 (withX (peAt .el1) 3 0x00007000000ABCDE) 0xD50881E3#32) with
       | .next u => (u.me.pc, u.pending.map fun pd => (pd.op.xt, pd.progress))
       | _ => (0, [])) =
        (0x80004, [(0x00007000000ABCDE, [{ pe := 0, performed := false, required := [], before := 0 },
          { pe := 1, performed := false, required := [], before := 0 }])]) := ⟨rfl, rfl⟩

/-- The first step after reset with a word placed (P3's word): it issues at EL3. -/
theorem test_step_after_reset :
    shown (step (State.reset.withFetchWord 32 0xD50881FF)) = .issue .secure .regimeEL10 (.vmid 0) .allAttr := by decide

/-! ### Witnesses: the argument and the entries -/

def e16 : TLBEntry := { e0 with granule := .g16KB, log2Size := 14, vaBase := 0x40000000 }

def e64 : TLBEntry := { e0 with granule := .g64KB, log2Size := 16, vaBase := 0x123450000 }

theorem witness_LowVaBitsAreIgnoredByGranule :
    (e0.wf cfg0 = true ∧ e0.granule = .g4KB ∧ e0.log2Size = 12) ∧
      (e16.wf cfg0 = true ∧ e16.granule = .g16KB ∧
        (0x40003 : Word64).extractLsb' 2 62 = (opX 0x40000).xt.extractLsb' 2 62) ∧
      (e64.wf cfg0 = true ∧ e64.granule = .g64KB ∧
        (0x12345F : Word64).extractLsb' 4 60 = (opX 0x123450).xt.extractLsb' 4 60) := by decide

/-- Each form issues, at EL1, EL2 and EL3, with a non-zero reserved bit. And two arguments that differ in reserved bits only. -/
theorem witness_ReservedArgumentBitsFollowThePolicy :
    (∀ el ∈ [EL.el1, EL.el2, EL.el3],
      let s := sys { cfg3 with res0Policy := .refuse } (withX (peAt el) 3 0x8000000000000000)
      s.Issues (.tlbiVaale1os 3) ∧ s.Issues (.tlbiVaale1osnxs 3) ∧ s.cfg.res0Policy = .refuse ∧
        res0NonZero s.cfg (s.me.readX 3) = true) ∧
      (sys cfg2 (peAt .el2)).cfg.res0Policy = .ignore ∧
      (vaField 0xFFFF3000000ABCDE = vaField op0.xt ∧ (ttlRaw 0xFFFF3000000ABCDE).toNat < 4 ∧ (ttlRaw op0.xt).toNat < 4) := by
  decide

theorem witness_OtherRegimesAndSecurityStatesAreNotRequired : required cfg0 op0 e0 = true := by decide

theorem witness_HighVaBitsMatchNoThirtyTwoBitEntry :
    e0.vaBase.toNat < 2 ^ 32 ∧ e0.log2Size ≤ 32 ∧ 2 ^ 20 ≤ (opX 0x00000000001ABCDE).xt.toNat % 2 ^ 44 := by decide

/-! ### Witnesses: the decision trees and completion -/

theorem witness_BothFormsIssueAtEL1 :
    (let s := sys cfg2 (hcrx (peAt .el1) true false)
     s.cfg.featTlbios = true ∧ s.me.pstate.el = .el1 ∧ trapTtlb s.cfg s.me = false ∧ trapTtlbos s.cfg s.me = false ∧
       trapFine s.cfg s.me = false ∧ s.ArgumentAccepted 3 ∧ s.PcBelowTop) ∧
      (let s := sys cfg2 (hcrx (hfg (peAt .el1)) false true)
       s.cfg.featTlbios = true ∧ s.cfg.featXs = true ∧ s.me.pstate.el = .el1 ∧ trapTtlb s.cfg s.me = false ∧
        trapTtlbos s.cfg s.me = false ∧ trapFineNxs s.cfg s.me = false ∧ s.ArgumentAccepted 3 ∧ s.PcBelowTop) := by decide

/-- At EL2, and at EL3 with FEAT_RME: what the nXS form asks, which is what the base form asks and FEAT_XS. -/
theorem witness_BothFormsIssueForAHost :
    let s := sys cfg2 (host (peAt .el2))
    let s' := sys cfg3r (scr (host (peAt .el3)) true false false false false)
    (s.cfg.featTlbios = true ∧ s.cfg.featXs = true ∧ el0IsInHost s.cfg s.me = true ∧ s.me.pstate.el = .el2 ∧
        s.ArgumentAccepted 3 ∧ s.PcBelowTop) ∧
      (s'.cfg.featTlbios = true ∧ s'.cfg.featXs = true ∧ el0IsInHost s'.cfg s'.me = true ∧ s'.me.pstate.el = .el3 ∧
        validSecurityStateAtEL s'.cfg .el2 s'.me = true ∧ s'.ArgumentAccepted 3 ∧ s'.PcBelowTop) := by decide

/-- As for a host. -/
theorem witness_BothFormsIssueForTheGuest :
    let s := sys cfg2 (peAt .el2)
    let s' := sys cfg3r (scr (peAt .el3) true true false false false)
    (s.cfg.featTlbios = true ∧ s.cfg.featXs = true ∧ el0IsInHost s.cfg s.me = false ∧ s.me.pstate.el = .el2 ∧
        s.ArgumentAccepted 3 ∧ s.PcBelowTop) ∧
      (s'.cfg.featTlbios = true ∧ s'.cfg.featXs = true ∧ el0IsInHost s'.cfg s'.me = false ∧ s'.me.pstate.el = .el3 ∧
        validSecurityStateAtEL s'.cfg .el1 s'.me = true ∧ s'.ArgumentAccepted 3 ∧ s'.PcBelowTop) := by decide

/-- `SCR_EL3.{NSE, NS} = 0b10`, where EL0 is in a host and where it is not (P5). -/
theorem witness_InvalidSecurityStateAtEL3IsANoOp :
    let s := sys cfg3r (scr (host (peAt .el3)) false true true false false)
    let s' := sys cfg3r (scr (peAt .el3) false true false false false)
    (s.cfg.featTlbios = true ∧ s.cfg.featXs = true ∧ s.me.pstate.el = .el3 ∧ s.cfg.featRme = true ∧
        el0IsInHost s.cfg s.me = true ∧
        validSecurityStateAtEL s.cfg (if el0IsInHost s.cfg s.me then .el2 else .el1) s.me = false ∧ s.PcBelowTop) ∧
      (s'.cfg.featTlbios = true ∧ s'.cfg.featXs = true ∧ s'.me.pstate.el = .el3 ∧ s'.cfg.featRme = true ∧
        el0IsInHost s'.cfg s'.me = false ∧
        validSecurityStateAtEL s'.cfg (if el0IsInHost s'.cfg s'.me then .el2 else .el1) s'.me = false ∧ s'.PcBelowTop) := by
  decide

/-- A PE with its pc at the last word. -/
def atTop (pe : PE) : PE := { pe with pc := 0xFFFFFFFFFFFFFFFC }

/-- The lowest pc whose successor is past the top, and the highest one whose is not. At EL1, EL2 and EL3 each form issues there, and
at EL3 it returns there. -/
theorem witness_PcAtTheTopFollowsThePolicy :
    (∀ p ∈ [PcWrap.free, PcWrap.wrap, PcWrap.refuse], ∀ el ∈ [EL.el1, EL.el2, EL.el3],
      let s := sys { cfg3 with pcWrap := p } (atTop (peAt el))
      s.Issues (.tlbiVaale1os 3) ∧ s.Issues (.tlbiVaale1osnxs 3) ∧ s.ArgumentAccepted 3 ∧ ¬ s.PcBelowTop ∧ s.cfg.pcWrap = p) ∧
      (let s := sys cfg3r (atTop (scr (peAt .el3) false true false false false))
       ¬ s.UndefinedCause (.tlbiVaale1os 3) ∧ ¬ s.TrapCause (.tlbiVaale1os 3) ∧ ¬ s.UndefinedCause (.tlbiVaale1osnxs 3) ∧
        ¬ s.TrapCause (.tlbiVaale1osnxs 3) ∧ s.ReturnsSilently ∧ ¬ s.PcBelowTop) ∧
      (sys cfg2 { peAt .el2 with pc := 0xFFFFFFFFFFFFFFFB }).PcBelowTop :=
  ⟨by decide, by decide, by decide⟩

theorem witness_IssuedRecordsHoldTheArguments :
    ∃ u, exec (.tlbiVaale1os 3) (sys cfg2 (peAt .el2)) = .next u ∧
      u.pending ≠ (sys cfg2 (peAt .el2)).pending := ⟨_, rfl, by decide⟩

theorem witness_AttributeDecidesWhatIsWaitedFor :
    ∃ u pd,
      exec (.tlbiVaale1os 3) (sys { cfg2 with featXs := false } (peAt .el2)) = .next u ∧
      u.pending = (sys { cfg2 with featXs := false } (peAt .el2)).pending ++ [pd] ∧
      (sys { cfg2 with featXs := false } (peAt .el2)).cfg.featXs = false := ⟨_, _, rfl, rfl, rfl⟩

theorem witness_DomainHoldsTheIssuer : 1 < (sys cfg2 (peAt .el2)).pes.length := by decide

theorem witness_FnxsMakesTheFormsAlike :
    let s := sys cfg2 (hcrx (peAt .el1) true false)
    s.cfg.featTlbios = true ∧ s.me.pstate.el = .el1 ∧ fnxsOverride s.cfg s.me = true ∧ trapTtlb s.cfg s.me = false ∧
      trapTtlbos s.cfg s.me = false ∧ trapFine s.cfg s.me = false := by decide

/-! ### Witnesses: exceptions and frames -/

/-- Each cause of Undefined alone, and each cause of the trap alone. -/
theorem witness_UndefinedHasExactlyItsCauses :
    (sys { cfg2 with featTlbios := false } (peAt .el3)).cfg.exceptions = .faultOutcome ∧
      base { cfg2 with featTlbios := false } (peAt .el3) = .undefined ∧
      base cfg2 (peAt .el0) = .undefined ∧ nxs { cfg2 with featXs := false } (peAt .el2) = .undefined := by decide

theorem witness_TrapHasExactlyItsCauses :
    (sys cfg2 (peAt .el1)).cfg.exceptions = .faultOutcome ∧ base cfg2 (hcr (peAt .el1) true false false false) = .trap ∧
      base cfg2 (hcr (peAt .el1) false true false false) = .trap ∧ base cfg2 (hfg (peAt .el1)) = .trap ∧
      nxs cfg2 (hfg (peAt .el1)) = .trap := by decide

theorem witness_OnlyEL1IsTrappedAndOnlyToEL2 :
    exec (.tlbiVaale1os 0) (sys cfg2 (hcr (peAt .el1) false true false false)) =
      .fault (.systemAccessTrap .el2 0x18 0xD50881E0#32) := rfl

/-- The same configuration where the model continues into a handler. -/
def cfgEnter : Config := { cfg2 with exceptions := .enterHandler }

theorem witness_FaultsDoNotReadTheArgument :
    (let s := sys cfg2 (peAt .el0)
     s.cfg.helpers = .reference ∧ s.cur < s.pes.length ∧
      exec (.tlbiVaale1os 31) s = .fault (.undefined 0xD50881FF#32)) ∧
      (let s := sys cfgEnter (peAt .el0)
       s.cfg.helpers = .reference ∧ s.cur < s.pes.length ∧ s.cfg.exceptions = .enterHandler ∧
        s.UndefinedCause (.tlbiVaale1os 3) ∧ s.UndefinedCause (.tlbiVaale1osnxs 3)) ∧
      (let s := sys cfgEnter (hcr (peAt .el1) true false false false)
       s.cfg.helpers = .reference ∧ s.cur < s.pes.length ∧ s.cfg.exceptions = .enterHandler ∧
        s.TrapCause (.tlbiVaale1os 3) ∧ s.TrapCause (.tlbiVaale1osnxs 3)) :=
  ⟨⟨rfl, by decide, rfl⟩, by decide, by decide⟩

/-- The coarse traps, the fine-grained trap of each form, and the base form without FEAT_XS. -/
theorem witness_TrapEntersTheHandlerAtEL2 :
    (∀ pe ∈ [hcr (peAt .el1) true false false false, hcr (peAt .el1) false true false false, hfg (peAt .el1)],
      let s := sys cfgEnter pe
      s.cfg.exceptions = .enterHandler ∧ s.cur < s.pes.length ∧ s.TrapCause (.tlbiVaale1os 3) ∧
        s.TrapCause (.tlbiVaale1osnxs 3)) ∧
      (sys { cfgEnter with featXs := false } (hfg (peAt .el1))).TrapCause (.tlbiVaale1os 3) := by decide

/-- The entry of the trap, from G7: class 0x18, the instruction's fields, the return address, the vector. -/
theorem test_trap_entry :
    (match exec (.tlbiVaale1osnxs 5) (sys cfgEnter (hcr (peAt .el1) true false false false)) with
     | .next u => (u.me.excEL2.esr.ec, u.me.excEL2.esr.iss, u.me.excEL2.elr, u.me.pc, u.me.pstate.el)
     | _ => (0, 0, 0, 0, .el0)) =
      (0x18, 0b0000111100010010010100010#25, 0x80000, 0x400, .el2) := by decide

/-- At EL0, where `HCR_EL2.TGE` is 1 and where it is not, and at EL1, EL2 and EL3 without the feature. -/
theorem witness_UndefinedEntersAHandler :
    (∀ pe ∈ [hcr (peAt .el0) false false false true, peAt .el0],
      let s := sys cfgEnter pe
      s.cfg.exceptions = .enterHandler ∧ s.cur < s.pes.length ∧ s.UndefinedCause (.tlbiVaale1os 3) ∧
        s.UndefinedCause (.tlbiVaale1osnxs 3)) ∧
      (∀ el ∈ [EL.el1, EL.el2, EL.el3],
        let s := sys { cfgEnter with featXs := false } (peAt el)
        s.UndefinedCause (.tlbiVaale1osnxs 3) ∧ ¬ s.UndefinedCause (.tlbiVaale1os 3)) ∧
      (sys { cfgEnter with featTlbios := false } (peAt .el2)).UndefinedCause (.tlbiVaale1os 3) := by decide

theorem witness_BothFormsFrameWhereExceptionsAreFaults :
    (sys cfg2 (peAt .el1)).cfg.exceptions = .faultOutcome ∧
      (∃ u, exec (.tlbiVaale1os 3) (sys cfg2 (peAt .el1)) = .next u) ∧
      ∃ u, exec (.tlbiVaale1osnxs 3) (sys cfg2 (peAt .el1)) = .next u := ⟨rfl, ⟨_, rfl⟩, ⟨_, rfl⟩⟩

theorem witness_BothFormsFrameWhereExceptionsAreEntered :
    ∃ u, exec (.tlbiVaale1os 3) (sys cfgEnter (peAt .el0)) = .next u ∧
      u.me.pstate ≠ (sys cfgEnter (peAt .el0)).me.pstate := ⟨_, rfl, by decide⟩

/-! ### Performing and completing (V7) -/

/-- A record of `op` waiting on two PEs. -/
def pend (op : TlbiOp) : Pending where
  serial := 0
  op := op
  progress := [{ pe := 0, performed := false, required := [], before := 0 }, { pe := 1, performed := false, required := [], before := 0 }]

/-- Two PEs that hold `E0`, the second also the next page, and one pending operation. -/
def two (op : TlbiOp) (later : List Event) : State where
  cfg := cfg0
  pes := [{ peAt .el1 with tlb := [e0] }, { peAt .el1 with tlb := [e0, { e0 with vaBase := 0xABCDF000 }] }]
  cur := 0
  pending := [pend op]
  issues := 1
  mem := []
  agenda := later
  draws := 0

/-- V7.2: performing on one PE takes the required entry, keeps the other, and leaves the other PE alone. -/
theorem test_perform :
    ((perform 0 1 [] (two op0 [])).pe 1).tlb = [{ e0 with vaBase := 0xABCDF000 }] ∧
      ((perform 0 1 [] (two op0 [])).pe 0).tlb = [e0] ∧
      (perform 0 1 [] (two op0 [])).pending.map (fun pd => pd.progress.map Progress.performed) = [[false, true]] := by decide

/-- A record performed on both PEs, `E0` having been required on each, when each had started one access. -/
def done (attr : TlbiAttr) : Pending where
  serial := 0
  op := { op0 with attr := attr }
  progress := [{ pe := 0, performed := true, required := [e0], before := 1 }, { pe := 1, performed := true, required := [e0], before := 1 }]

/-- A state with that record and one access in flight on the second PE. -/
def flying (attr : TlbiAttr) (a : Access) : State where
  cfg := cfg0
  pes := [{ peAt .el1 with started := 1 }, { peAt .el1 with inFlight := [a], started := 2 }]
  cur := 0
  pending := [done attr]
  issues := 1
  mem := []
  agenda := []
  draws := 0

/-- V7.5 to V7.8: what completion waits for. -/
theorem test_complete :
    complete (flying .allAttr { entry := e0, xs := true, serial := 0 }) (done .allAttr) = false ∧
      complete (flying .excludeXS { entry := e0, xs := true, serial := 0 }) (done .excludeXS) = true ∧
      complete (flying .excludeXS { entry := e0, xs := false, serial := 0 }) (done .excludeXS) = false ∧
      complete (flying .allAttr { entry := { e0 with vaBase := 0xABCDF000 }, xs := false, serial := 0 }) (done .allAttr) = true := by decide

/-- Rule R116: an access that started after `Perform` is not waited for, even with an equal entry. -/
theorem test_complete_reloaded :
    complete (flying .allAttr { entry := e0, xs := false, serial := 1 }) (done .allAttr) = true := by decide

theorem witness_PerformRemovesWhatIsRequired :
    (two op0 []).pending[0]? = some (pend op0) ∧ (pend op0).awaits 1 = true ∧ 1 < (two op0 []).pes.length ∧
      eel2Excepted (pend op0).op ((two op0 []).pe 1) = false := by decide

theorem witness_PerformMayRemoveAnySetAboveTheRequired :
    (two op0 []).pending[0]? = some (pend op0) ∧ (pend op0).awaits 1 = true ∧ 1 < (two op0 []).pes.length ∧
      (∀ e ∈ requiredOn (two op0 []).cfg (pend op0).op ((two op0 []).pe 1), e ∈ ((two op0 []).pe 1).tlb) ∧
      ∀ e ∈ ((two op0 []).pe 1).tlb, e ∈ ((two op0 []).pe 1).tlb := by decide

/-- V7.10: the operation is Secure, and the issuer had `EEL2` 1. -/
def opSecure : TlbiOp := { op0 with security := .secure, eel2 := true }

theorem witness_DifferingEel2RequiresNothing :
    (two opSecure []).pending[0]? = some (pend opSecure) ∧ (pend opSecure).awaits 1 = true ∧
      (pend opSecure).op.regime = .regimeEL10 ∧ (pend opSecure).op.security = .secure ∧
      ((two opSecure []).pe 1).scrEL3.eel2 ≠ (pend opSecure).op.eel2 := by decide

theorem witness_RemoteEffectIsSilent :
    (two op0 [.perform 0 1 []]).nextEvent = .perform 0 1 [] := by decide

/-- Three PEs, the third outside the domain (V7.4). -/
def three : State := { two op0 [] with pes := (two op0 []).pes ++ [{ peAt .el1 with tlb := [e0] }] }

theorem witness_OutsideTheDomainNothingIsPerformed :
    three.Inv ∧ three.pending[0]? = some (pend op0) ∧ 2 ∉ three.domain (pend op0).op := by decide

theorem witness_PerformOrderIsImmaterial : (0 : PEId) ≠ 1 := by decide

theorem witness_PerformCannotFail :
    (two op0 [.perform 0 1 []]).nextEvent = .perform 0 1 [] ∧
      ((two (opX 0) []).pending[0]? = some (pend (opX 0)) ∧
        ∀ e ∈ ((two (opX 0) []).pe 1).tlb, required (two (opX 0) []).cfg (pend (opX 0)).op e = false) ∧
      ∀ q ∈ [({ pe := 0, performed := true, required := [], before := 0 } : Progress)], q.performed = true ∧ q.required = [] := by decide

theorem witness_CompleteMeansPerformedAndDrained :
    (done .excludeXS).wf (flying .excludeXS { entry := e0, xs := true, serial := 0 }) := by decide

theorem witness_AttributeChangesOnlyCompletion :
    (done .allAttr).op.attr = .allAttr ∧
      complete (flying .allAttr { entry := { e0 with vaBase := 0xABCDF000 }, xs := false, serial := 0 }) (done .allAttr) = true := by decide

/-- An entry that is filled. -/
def eNew : TLBEntry := { e0 with vaBase := 0x1000 }

theorem witness_EntriesComeByFillAndGoByEvictionOrPerform :
    (let s := two op0 [.fill 0 eNew]
     s.nextEvent = .fill 0 eNew ∧ 0 < s.pes.length ∧ eNew.wf s.cfg = true) ∧
      (let s := two op0 [.evict 0 e0]
       s.nextEvent = .evict 0 e0 ∧ (s.pe 0).tlb.Nodup) ∧
      (∃ u, step (two op0 [.fill 0 eNew]) = .next u ∧ eNew ∉ ((two op0 [.fill 0 eNew]).pe 0).tlb ∧ eNew ∈ (u.pe 0).tlb) ∧
      (∃ u, step (two op0 [.evict 0 e0]) = .next u ∧ e0 ∈ ((two op0 [.evict 0 e0]).pe 0).tlb ∧ e0 ∉ (u.pe 0).tlb) ∧
      ∃ u, step (two op0 [.perform 0 0 []]) = .next u ∧ e0 ∈ ((two op0 [.perform 0 0 []]).pe 0).tlb ∧ e0 ∉ (u.pe 0).tlb :=
  ⟨by decide, by decide, ⟨_, rfl, by decide, by decide⟩, ⟨_, rfl, by decide, by decide⟩, ⟨_, rfl, by decide, by decide⟩⟩

/-- 20_memory.md section 3: an entry of 128 bits comes into a TLB with FEAT_D128 and not without. -/
theorem test_fill_of_128_bits :
    (fill 0 e128 (two op0 [])).pes = (two op0 []).pes ∧
      e128 ∈ ((fill 0 e128 { two op0 [] with cfg := { cfg0 with featD128 := true } }).pe 0).tlb := by decide

/-- The clause on entries of 128 bits is met by such a fill. -/
theorem witness_EntriesComeByFill_128 :
    let s := { two op0 [.fill 0 e128] with cfg := { cfg0 with featD128 := true } }
    e128.descBits = .bits128 ∧ e128 ∉ (s.pe 0).tlb ∧ ∃ u, step s = .next u ∧ e128 ∈ (u.pe 0).tlb :=
  ⟨rfl, by decide, ⟨_, rfl, by decide⟩⟩

/-- An access in flight on the first PE. -/
def a0 : Access := { entry := e0, xs := true, serial := 0 }

theorem witness_AccessesStartAndFinish :
    (let s := two op0 [.startAccess 0 e0 true]
     s.nextEvent = .startAccess 0 e0 true ∧ 0 < s.pes.length ∧ e0 ∈ (s.pe 0).tlb) ∧
      (flying .allAttr a0).Inv ∧
      (∃ u, step (two op0 [.startAccess 0 e0 true]) = .next u ∧ a0 ∉ ((two op0 [.startAccess 0 e0 true]).pe 0).inFlight ∧
        a0 ∈ (u.pe 0).inFlight) ∧
      ∃ u, step { flying .allAttr a0 with agenda := [.finishAccess 1 0] } = .next u ∧
        a0 ∈ ((flying .allAttr a0).pe 1).inFlight ∧ a0 ∉ (u.pe 1).inFlight :=
  ⟨by decide, by decide, ⟨_, rfl, by decide, by decide⟩, ⟨_, rfl, by decide, by decide⟩⟩

/-- A step that starts an access with an equal entry on a PE where the record has been performed. -/
theorem witness_CompletionIsNotUndone :
    let s : State :=
      { flying .allAttr { entry := e0, xs := true, serial := 1 } with
        pes := [{ peAt .el1 with tlb := [e0], started := 1 }, peAt .el1]
        pending := [{ done .allAttr with progress :=
          [{ pe := 0, performed := true, required := [e0], before := 1 },
           { pe := 1, performed := true, required := [], before := 0 }] }]
        agenda := [.startAccess 0 e0 false] }
    (∀ pd ∈ s.pending, pd.wf s ∧ complete s pd = true) ∧
      ∃ u, step s = .next u ∧ (u.pe 0).inFlight = [{ entry := e0, xs := false, serial := 1 }] :=
  ⟨by decide, ⟨_, rfl, by decide⟩⟩

/-- A step that performs, one that drops a complete record, and one that finds it not complete. -/
theorem witness_PendingInvalidationsAreNeverCancelled :
    ((∃ u, step (two op0 [.perform 0 0 []]) = .next u) ∧ pend op0 ∈ (two op0 [.perform 0 0 []]).pending) ∧
      (let s : State := { flying .excludeXS a0 with agenda := [.retire 0] }
       s.nextEvent = .retire 0 ∧ s.pending[0]? = some (done .excludeXS) ∧ complete s (done .excludeXS) = true) ∧
      (let s : State := { flying .allAttr a0 with agenda := [.retire 0] }
       s.nextEvent = .retire 0 ∧ s.pending[0]? = some (done .allAttr) ∧ complete s (done .allAttr) = false) :=
  ⟨⟨⟨_, rfl⟩, by decide⟩, by decide, by decide⟩

theorem witness_RequiredEntriesStayGoneUnlessRefilled :
    let s := two op0 [.perform 0 1 [], .fill 1 eNew]
    s.agenda = .perform 0 1 [] :: [.fill 1 eNew] ∧ s.pending[0]? = some (pend op0) ∧ (pend op0).awaits 1 = true ∧
      1 < s.pes.length ∧ eel2Excepted (pend op0).op (s.pe 1) = false ∧ required s.cfg (pend op0).op eNew = false ∧
      ∃ u, core.run ([Event.fill 1 eNew].length + 1) s = .next u :=
  ⟨rfl, rfl, by decide, by decide, by decide, by decide, ⟨_, rfl⟩⟩

theorem witness_NoRequiredEntryReturnsButByFill :
    let s := perform 0 1 [] (two op0 [.fill 1 eNew])
    (s.pe 1).tlb ≠ [] ∧ (∀ e ∈ (s.pe 1).tlb, required s.cfg op0 e = false) ∧
      (∀ e, s.nextEvent = .fill 1 e → required s.cfg op0 e = false) ∧ ∃ u, step s = .next u :=
  ⟨by decide, by decide, fun _ h => by cases h; decide, ⟨_, rfl⟩⟩

theorem witness_PerformingEverywhereCompletes :
    let s := two op0 (performAll 0 [0, 1])
    s.Inv ∧ s.pending[0]? = some (pend op0) ∧ (∀ q ∈ (pend op0).progress, q.performed = false) ∧
      s.agenda = performAll 0 (s.domain (pend op0).op) ++ [] ∧
      (∀ p ∈ s.domain (pend op0).op, eel2Excepted (pend op0).op (s.pe p) = false) ∧
      ∀ p ∈ s.domain (pend op0).op, (s.pe p).inFlight = [] := by decide

/-! ### A fair run -/

/-- The schedule that performs on the two PEs in turn. -/
def inTurn (n : Nat) : Event := .perform 0 (n % 2) []

/-- The run under it from a fresh record. -/
def turns : Nat → State
  | 0 => two op0 []
  | n + 1 => perform 0 (n % 2) [] (turns n)

/-- Once both PEs have been visited nothing more happens. -/
theorem turns_settled (n : Nat) : turns (n + 2) = turns 2 := by
  induction n with
  | zero => rfl
  | succ n ih =>
    have h : perform 0 ((n + 2) % 2) [] (turns 2) = turns 2 := by
      rcases Nat.mod_two_eq_zero_or_one (n + 2) with h | h <;> rw [h] <;> decide
    rw [← ih] at h
    exact h.trans ih

theorem witness_FairRunsPerformEveryInvalidation :
    (turns 0).Inv ∧ IsRun inTurn turns ∧ Fair inTurn turns ∧ pend op0 ∈ (turns 0).pending := by
  refine ⟨by decide, fun n => rfl, fun n serial p h => ?_, by decide⟩
  obtain ⟨pd, hpd, hs, ha⟩ := h
  match n with
  | 0 =>
    rw [List.mem_singleton.1 hpd] at hs ha
    obtain ⟨q, hq, rfl, -⟩ := Pending.awaits_iff.1 ha
    rcases List.mem_cons.1 hq with rfl | hq
    · exact ⟨0, Nat.le_refl 0, 0, [], pend op0, rfl, rfl, hs, by decide⟩
    · rw [List.mem_singleton.1 hq]
      exact ⟨1, by decide, 0, [], _, rfl, rfl, hs, by decide⟩
  | 1 =>
    rw [List.mem_singleton.1 hpd] at hs ha
    obtain ⟨q, hq, rfl, hf⟩ := Pending.awaits_iff.1 ha
    rcases List.mem_cons.1 hq with rfl | hq
    · cases hf
    · rw [List.mem_singleton.1 hq]
      exact ⟨1, by decide, 0, [], _, rfl, rfl, hs, by decide⟩
  | n + 2 =>
    rw [turns_settled] at hpd
    rw [List.mem_singleton.1 hpd] at ha
    obtain ⟨q, hq, -, hf⟩ := Pending.awaits_iff.1 ha
    rcases List.mem_cons.1 hq with rfl | hq
    · cases hf
    · rw [List.mem_singleton.1 hq] at hf; cases hf

/-! ### Witnesses: the whole machine -/

theorem witness_StepKeepsTheInvariant :
    (two op0 [.perform 0 1 []]).Inv ∧ ∃ u, step (two op0 [.perform 0 1 []]) = .next u := ⟨by decide, ⟨_, rfl⟩⟩

theorem witness_ResetHasNothingPending : 0 < State.reset.pes.length ∧ 1 < State.reset.pes.length := by decide

theorem witness_StepKeepsTheConfiguration : ∃ u, step (two op0 [.evict 0 e0]) = .next u := ⟨_, rfl⟩

theorem witness_OnlyItsOwnExecutionChangesAPE :
    ((∃ u, step (two op0 [.evict 0 e0]) = .next u) ∧ (two op0 [.evict 0 e0]).nextEvent ≠ .execute 0) ∧
      (∃ u, step (aboutToRun cfg2 (peAt .el2) 0xD50881E3#32) = .next u) ∧
      (aboutToRun cfg2 (peAt .el2) 0xD50881E3#32).nextEvent = .execute 0 ∧
      (aboutToRun cfg2 (peAt .el2) 0xD50881E3#32).cfg.exceptions = .faultOutcome :=
  ⟨⟨⟨_, rfl⟩, by decide⟩, ⟨_, rfl⟩, rfl, rfl⟩

theorem witness_NoStepWritesASystemRegister :
    (aboutToRun cfg2 (peAt .el2) 0xD50881E3#32).cfg.exceptions = .faultOutcome ∧
      ∃ u, step (aboutToRun cfg2 (peAt .el2) 0xD50881E3#32) = .next u := ⟨rfl, ⟨_, rfl⟩⟩

end Sys2Proof.Tests
end

section
/-! PROOFS. The statements on the encoding: the decoding of TTL (30_encoding.md section 2). -/

namespace Sys2Proof.Machine

/-! The table of TTL, one lemma per value of `TTL[3:2]`: the four rows of 30_encoding.md rule R80 as the source gives them. -/

theorem decodeTtl_noGranule (cfg : Config) :
    [0b0000#4, 0b0001#4, 0b0010#4, 0b0011#4].map (decodeTtl cfg) = [none, none, none, none] := rfl

theorem decodeTtl_g4KB (cfg : Config) :
    [0b0100#4, 0b0101#4, 0b0110#4, 0b0111#4].map (decodeTtl cfg) =
      [if cfg.featLpa2 then some (.g4KB, 0) else none, some (.g4KB, 1), some (.g4KB, 2), some (.g4KB, 3)] := rfl

theorem decodeTtl_g16KB (cfg : Config) :
    [0b1000#4, 0b1001#4, 0b1010#4, 0b1011#4].map (decodeTtl cfg) =
      [none, if cfg.featLpa2 then some (.g16KB, 1) else none, some (.g16KB, 2), some (.g16KB, 3)] := rfl

theorem decodeTtl_g64KB (cfg : Config) :
    [0b1100#4, 0b1101#4, 0b1110#4, 0b1111#4].map (decodeTtl cfg) =
      [none, some (.g64KB, 1), some (.g64KB, 2), some (.g64KB, 3)] := rfl

/-- The sixteen values of TTL in order, as the four values of `TTL[1:0]` under each value of `TTL[3:2]`. -/
theorem map_ofNat_range_sixteen :
    (List.range 16).map (BitVec.ofNat 4) =
      [0b0000#4, 0b0001#4, 0b0010#4, 0b0011#4] ++ [0b0100#4, 0b0101#4, 0b0110#4, 0b0111#4] ++
        [0b1000#4, 0b1001#4, 0b1010#4, 0b1011#4] ++ [0b1100#4, 0b1101#4, 0b1110#4, 0b1111#4] := by
  decide

/-- Settles O11, granule by granule. -/
theorem ttlTable : Obligations.TtlTable := by
  unfold Obligations.TtlTable
  intro cfg
  have hrows : (List.range 16).map (fun v => decodeTtl cfg (BitVec.ofNat 4 v)) =
      ((List.range 16).map (BitVec.ofNat 4)).map (decodeTtl cfg) := by
    rw [List.map_map, Function.comp_def]
  rw [hrows, map_ofNat_range_sixteen, List.map_append, List.map_append, List.map_append,
    decodeTtl_noGranule, decodeTtl_g4KB, decodeTtl_g16KB, decodeTtl_g64KB]
  rfl

end Sys2Proof.Machine
end

section
/-! PROOFS. The statements on the invalidation operation: what decides which entries must go (40_invalidation_operation.md
section 2), and what the sixth argument of the call decides (section 4). -/

namespace Sys2Proof.Machine

/-- Settles O15: no conjunct of `Required` (rule R101) reads either field of the entry, so the two sides unfold to one term. -/
theorem asidAndGlobalAreNotCompared : Obligations.AsidAndGlobalAreNotCompared := by
  unfold Obligations.AsidAndGlobalAreNotCompared
  intro cfg op e asid global
  rfl

/-! ### What the sixth argument does not decide -/

theorem requiredOn_withAttr (cfg : Config) (op : TlbiOp) (attr : TlbiAttr) (pe : PE) :
    requiredOn cfg { op with attr := attr } pe = requiredOn cfg op pe := rfl

theorem State.domain_withAttr (s : State) (op : TlbiOp) (attr : TlbiAttr) :
    s.domain { op with attr := attr } = s.domain op := rfl

/-- `Perform` reads the operation only through `Req`. -/
theorem tlbAfterPerform_withAttr (cfg : Config) (op : TlbiOp) (attr : TlbiAttr) (extra : List TLBEntry) (pe : PE) :
    tlbAfterPerform cfg { op with attr := attr } extra pe = tlbAfterPerform cfg op extra pe := by
  unfold tlbAfterPerform
  rw [requiredOn_withAttr]

/-! ### What completion waits for -/

/-- `Complete(op)` (rule R116) as a condition on each PE of the record. -/
theorem complete_iff {s : State} {pd : Pending} :
    complete s pd = true ↔
      ∀ q ∈ pd.progress, q.performed = true ∧
        ∀ a ∈ (s.pe q.pe).inFlight, q.removedEntryOf a = true → waits pd.op.attr a = false := by
  simp [complete, or_iff_not_imp_left]

/-- A weaker wait keeps a complete record complete. -/
theorem complete_of_waits_le {s : State} {pd : Pending} {attr : TlbiAttr}
    (hw : ∀ a, waits pd.op.attr a = false → waits attr a = false) (h : complete s pd = true) :
    complete s { pd with op := { pd.op with attr := attr } } = true := by
  rw [complete_iff] at h ⊢
  intro q hq
  obtain ⟨hp, ha⟩ := h q hq
  exact ⟨hp, fun a hin hr => hw a (ha a hin hr)⟩

/-- `TLBI_AllAttr` waits for every access (rule R117). -/
@[simp] theorem waits_allAttr (a : Access) : waits .allAttr a = true := rfl

/-! ### An access with XS that outlives the operation

A run of the model: one PE has an access with `xs = 1` in flight, issues an operation that does not wait for such accesses, and
performs it. -/

/-- The entry that the access uses, with virtual address 0. -/
def usedEntry : TLBEntry where
  stage := .stage1
  descBits := .bits64
  finalLevel := true
  level := 3
  granule := .g4KB
  regime := .regimeEL20
  security := .secure
  vmid := 0
  asid := 0
  global := false
  vaBase := 0
  log2Size := 12

/-- The access, the first its PE has started. -/
def xsAccess : Access where
  entry := usedEntry
  xs := true
  serial := 0

/-- The system before the operation is issued. -/
def beforeIssue : State where
  cfg := Config.reset
  pes := [PE.fresh [usedEntry] [xsAccess]]
  cur := 0
  pending := []
  issues := 0
  mem := []
  agenda := []
  draws := 0

/-- The operation: it targets virtual address 0 of the EL2&0 regime. -/
def nxsOp : TlbiOp := beforeIssue.newOp .secure .regimeEL20 .vmidNone .excludeXS 0

/-- The system after the operation is issued and performed on its one PE. -/
def afterPerform : State := perform 0 0 [] (beforeIssue.addPending nxsOp)

/-- What `Perform` recorded of the PE: it was required to remove the entry in use, and one access had started. -/
def nxsProgress : Progress where
  pe := 0
  performed := true
  required := [usedEntry]
  before := 1

/-- The record of the operation after it is performed. -/
def nxsRecord : Pending where
  serial := 0
  op := nxsOp
  progress := [nxsProgress]

theorem afterPerform_pending : afterPerform.pending = [nxsRecord] := by decide

theorem inv_afterPerform : afterPerform.Inv := by decide

/-- The entry is gone, the access that used it is in flight, and the operation is complete all the same. -/
theorem complete_nxsRecord_with_xsAccess_inFlight :
    complete afterPerform nxsRecord = true ∧ (afterPerform.pe 0).inFlight = [xsAccess] ∧ (afterPerform.pe 0).tlb = [] := by
  decide

/-- Settles O45. Neither `Req`, `Domain` nor `Perform` reads the sixth argument; `TLBI_AllAttr` waits for every access, so what is
complete with it is complete with either; and `afterPerform` is a state with a complete operation and such an access in flight. -/
theorem attributeChangesOnlyCompletion : Obligations.AttributeChangesOnlyCompletion := by
  unfold Obligations.AttributeChangesOnlyCompletion
  refine ⟨fun s op attr pe extra => ⟨requiredOn_withAttr .., s.domain_withAttr op attr, tlbAfterPerform_withAttr ..⟩,
    fun s pd attr hall hc => complete_of_waits_le (fun a h => ?_) hc, ?_⟩
  · rw [hall, waits_allAttr] at h
    cases h
  · obtain ⟨hcomplete, hflight, -⟩ := complete_nxsRecord_with_xsAccess_inFlight
    refine ⟨afterPerform, nxsRecord, nxsProgress, xsAccess, inv_afterPerform, ?_, rfl, hcomplete, List.mem_singleton.2 rfl, ?_,
      Nat.zero_lt_one, List.mem_singleton.2 rfl, rfl⟩
    · exact afterPerform_pending ▸ List.mem_singleton.2 rfl
    · exact hflight ▸ List.mem_singleton.2 rfl

end Sys2Proof.Machine
end

section
/-! PROOFS. The statements on exceptions: the remote effect of an operation is silent (60_exceptions.md rule R170). -/

namespace Sys2Proof.Machine

/-- A step whose event performs an invalidation always answers a next state: the one that `perform` gives. -/
theorem step_of_nextEvent_perform {s : State} {k : Nat} {p : PEId} {extra : List TLBEntry}
    (h : s.nextEvent = .perform k p extra) : step s = .next (perform k p extra s.afterDraw) := by
  simp only [step, h, runEvent]

@[simp] theorem perform_mem (k : Nat) (p : PEId) (extra : List TLBEntry) (s : State) :
    (perform k p extra s).mem = s.mem := by
  rcases perform_cases k p extra s with h | ⟨_, -, -, h⟩ <;> rw [h]; rfl

@[simp] theorem perform_cur (k : Nat) (p : PEId) (extra : List TLBEntry) (s : State) :
    (perform k p extra s).cur = s.cur := by
  rcases perform_cases k p extra s with h | ⟨_, -, -, h⟩ <;> rw [h]; rfl

/-- What `Perform` on `p` leaves of a PE: the PE as it was, or, only where it is `p`, the PE with another TLB (rule R114). -/
theorem perform_pe_cases (k : Nat) (p q : PEId) (extra : List TLBEntry) (s : State) :
    (perform k p extra s).pe q = s.pe q ∨ q = p ∧ ∃ l, (perform k p extra s).pe q = (s.pe q).setTlb l := by
  rcases perform_cases k p extra s with h | ⟨pd, -, -, h⟩
  · exact .inl (by rw [h])
  · rw [h, State.setPending_pe]
    rcases State.pe_setPe_cases s p q ((s.pe p).setTlb (tlbAfterPerform s.cfg pd.op extra (s.pe p)))
      with ⟨rfl, -, hset⟩ | hsame
    · exact .inr ⟨rfl, _, hset⟩
    · exact .inl hsame

/-- The TLB is none of the registers of a PE. -/
theorem PE.sameRegisters_setTlb (pe : PE) (l : List TLBEntry) : (pe.setTlb l).SameRegisters pe := rfl

/-- Settles O40: the step is `perform`, which gives at most one PE another TLB. -/
theorem remoteEffectIsSilent : Obligations.RemoteEffectIsSilent := by
  unfold Obligations.RemoteEffectIsSilent
  intro s index p extra hevent
  refine ⟨_, step_of_nextEvent_perform hevent, by simp, by simp, fun q => ?_⟩
  rcases perform_pe_cases index p q extra s.afterDraw with hsame | ⟨hqp, l, hset⟩
  · rw [hsame, State.afterDraw_pe]
    exact ⟨rfl, rfl, rfl, fun _ => rfl⟩
  · rw [hset, State.afterDraw_pe]
    exact ⟨(s.pe q).sameRegisters_setTlb l, PE.setTlb_inFlight .., PE.setTlb_started .., fun hne => absurd hqp hne⟩

end Sys2Proof.Machine
end

section
/-! PROOFS. The statements on the encoding: an instruction and its word determine each other (30_encoding.md sections 1 and
3). -/

namespace Sys2Proof.Machine

/-! ### Words, fields and bytes -/

/-- The fields of rule R72 do not overlap in the word. -/
theorem fieldsOf_wordOf (f : SysFields) : fieldsOf (wordOf f) = f := by
  simp (disch := decide) only [fieldsOf, wordOf, BitVec.extractLsb'_append_eq_of_le,
    BitVec.extractLsb'_append_eq_of_add_le, BitVec.extractLsb'_eq_self, Nat.reduceSub]

/-- The fields of rule R72 leave no bit of the word out. -/
theorem wordOf_fieldsOf (w : InstrWord) : wordOf (fieldsOf w) = w := by
  simp only [fieldsOf, wordOf, BitVec.extractLsb'_append_extractLsb'_eq_extractLsb']
  exact BitVec.extractLsb'_eq_self

/-- A word is read back from its bytes in memory order. -/
theorem wordOfBytes_extractLsb' (w : InstrWord) :
    wordOfBytes (w.extractLsb' 0 8) (w.extractLsb' 8 8) (w.extractLsb' 16 8) (w.extractLsb' 24 8) = w := by
  simp only [wordOfBytes, BitVec.extractLsb'_append_extractLsb'_eq_extractLsb']
  exact BitVec.extractLsb'_eq_self

theorem encode_eq_iff {i : Instr} {w : InstrWord} : encode i = w ↔ fieldsOf w = fieldsOfInstr i := by
  constructor
  · rintro rfl
    exact fieldsOf_wordOf _
  · intro h
    rw [encode, ← h, wordOf_fieldsOf]

/-- The decoder finds the instruction whose fields a word has. -/
theorem decodeWord_of_fieldsOf {w : InstrWord} {i : Instr} (hwf : WellFormed i = true)
    (h : fieldsOf w = fieldsOfInstr i) : decodeWord w = some i := by
  unfold decodeWord
  rw [h]
  cases i with
  | tlbiVaale1os t =>
    have ht : t ≤ 31 := of_decide_eq_true hwf
    simp [fieldsOfInstr, Nat.mod_eq_of_lt (show t < 32 by omega)]
  | tlbiVaale1osnxs t =>
    have ht : t ≤ 31 := of_decide_eq_true hwf
    simp [fieldsOfInstr, Nat.mod_eq_of_lt (show t < 32 by omega)]

/-- A word that decodes has the fields of what it decodes to. -/
theorem fieldsOf_of_decodeWord {w : InstrWord} {i : Instr} (h : decodeWord w = some i) :
    WellFormed i = true ∧ fieldsOf w = fieldsOfInstr i := by
  unfold decodeWord at h
  generalize fieldsOf w = f at h ⊢
  obtain ⟨fixed, l, op0, op1, crn, crm, op2, rt⟩ := f
  have hrt : rt.toNat ≤ 31 := Nat.le_of_lt_succ rt.isLt
  split at h
  · rename_i hrow
    obtain ⟨rfl, rfl, rfl, rfl, rfl, rfl⟩ := hrow
    split at h
    · obtain rfl := Option.some.inj h
      rename_i hcrn
      exact ⟨decide_eq_true hrt, by simp_all [fieldsOfInstr]⟩
    · split at h
      · obtain rfl := Option.some.inj h
        rename_i hcrn
        exact ⟨decide_eq_true hrt, by simp_all [fieldsOfInstr]⟩
      · cases h
  · cases h

/-- The decoder and the encoder as one relation: a word decodes to exactly the well-formed instruction whose word it is. -/
theorem decodeWord_eq_some_iff {w : InstrWord} {i : Instr} :
    decodeWord w = some i ↔ WellFormed i = true ∧ encode i = w := by
  rw [encode_eq_iff]
  exact ⟨fieldsOf_of_decodeWord, fun ⟨hwf, h⟩ => decodeWord_of_fieldsOf hwf h⟩

theorem decodeWord_encode {i : Instr} (h : WellFormed i = true) : decodeWord (encode i) = some i :=
  decodeWord_eq_some_iff.2 ⟨h, rfl⟩

/-- Settles O3: the word is read back from its bytes, and the instruction from the word. -/
theorem decodeOfEncodeIsTheInstruction : Obligations.DecodeOfEncodeIsTheInstruction := by
  unfold Obligations.DecodeOfEncodeIsTheInstruction
  intro i rest hwf
  simp only [bytesOfWord, List.cons_append, List.nil_append, decodeBytes, wordOfBytes_extractLsb', decodeWord_encode hwf]

/-- Settles O4. -/
theorem encodeOfDecodeIsTheWord : Obligations.EncodeOfDecodeIsTheWord := by
  unfold Obligations.EncodeOfDecodeIsTheWord
  exact fun _ _ => decodeWord_eq_some_iff.1

/-! ### The match words -/

/-- The 27 bits above `Rt` in the rows of rules R73 and R74. -/
def rowBits : Instr → BitVec 27
  | .tlbiVaale1os _ => 111690767#27
  | .tlbiVaale1osnxs _ => 111690895#27

theorem encode_eq_append (i : Instr) : encode i = rowBits i ++ BitVec.ofNat 5 i.rt := by
  cases i with
  | tlbiVaale1os t => simp only [encode, wordOf, fieldsOfInstr, rowBits, Instr.rt]; rfl
  | tlbiVaale1osnxs t => simp only [encode, wordOf, fieldsOfInstr, rowBits, Instr.rt]; rfl

/-- The match word of each row, with `Rt` zero. -/
theorem rowBits_append_zero (i : Instr) :
    rowBits i ++ 0#5 = if nxsForm i then 0xD50891E0#32 else 0xD50881E0#32 := by
  cases i with
  | tlbiVaale1os t => exact (by decide : 111690767#27 ++ 0#5 = 0xD50881E0#32)
  | tlbiVaale1osnxs t => exact (by decide : 111690895#27 ++ 0#5 = 0xD50891E0#32)

/-- The mask of both rows keeps the bits above `Rt`. -/
theorem encode_and_mask (i : Instr) : encode i &&& 0xFFFFFFE0#32 = if nxsForm i then 0xD50891E0#32 else 0xD50881E0#32 := by
  rw [encode_eq_append, show 0xFFFFFFE0#32 = BitVec.allOnes 27 ++ 0#5 by decide, BitVec.and_append, BitVec.and_allOnes,
    BitVec.and_zero, rowBits_append_zero]

/-- The register number stands in the low bits of the word. -/
theorem encode_eq_or {i : Instr} (h : i.rt ≤ 31) : 
    encode i = (if nxsForm i then 0xD50891E0#32 else 0xD50881E0#32) ||| BitVec.ofNat 32 i.rt := by
  have hrt : BitVec.ofNat 32 i.rt = 0#27 ++ BitVec.ofNat 5 i.rt := by
    apply BitVec.eq_of_toNat_eq
    rw [BitVec.toNat_append]
    simp
    omega
  rw [encode_eq_append, ← rowBits_append_zero, hrt, BitVec.or_append, BitVec.or_zero, BitVec.zero_or]

/-- Settles O1. -/
theorem encodedWordsAreTheTableWords : Obligations.EncodedWordsAreTheTableWords := by
  unfold Obligations.EncodedWordsAreTheTableWords
  exact fun t ht => ⟨encode_eq_or (i := .tlbiVaale1os t) ht, encode_eq_or (i := .tlbiVaale1osnxs t) ht⟩

/-- Settles O2: five fixed words, which the decoder evaluates. -/
theorem wordsWrittenOutDecode : Obligations.WordsWrittenOutDecode := by
  unfold Obligations.WordsWrittenOutDecode
  decide

/-- A word outside both rows decodes to nothing (rule R89). -/
theorem decodeWord_of_masked_ne {w : InstrWord} (hbase : w &&& 0xFFFFFFE0#32 ≠ 0xD50881E0#32)
    (hnxs : w &&& 0xFFFFFFE0#32 ≠ 0xD50891E0#32) : decodeWord w = none := by
  cases hd : decodeWord w with
  | none => rfl
  | some i =>
    obtain ⟨-, rfl⟩ := decodeWord_eq_some_iff.1 hd
    rw [encode_and_mask] at hbase hnxs
    cases i with
    | tlbiVaale1os t => exact absurd rfl hbase
    | tlbiVaale1osnxs t => exact absurd rfl hnxs

/-- Settles O5. -/
theorem otherWordsAreNotSpecifiedHere : Obligations.OtherWordsAreNotSpecifiedHere := by
  unfold Obligations.OtherWordsAreNotSpecifiedHere
  intro s w hfetch hbase hnxs
  simp only [fetchAndExec, hfetch, decodeWord_of_masked_ne hbase hnxs]

end Sys2Proof.Machine
end

section
/-! PROOFS. The statements on the step and the fetch: the word at the pc is what a step runs (20_memory.md section 2). -/

namespace Sys2Proof.Machine

/-! ### The fetch -/

theorem fetchByte_of_readByte {m : Memory} {a : Nat} {b : Byte} (ha : a < 2 ^ 64) (h : m.readByte a = some b) :
    fetchByte m a = .ok b := by
  rw [fetchByte, if_pos ha, h]

theorem fetchByte_of_unwritten {m : Memory} {a : Nat} (ha : a < 2 ^ 64) (h : m.readByte a = none) :
    fetchByte m a = .error (.fetchUnwritten a) := by
  rw [fetchByte, if_pos ha, h]

theorem fetchWord_of_readByte {m : Memory} {a : Nat} {b0 b1 b2 b3 : Byte} (ha : a + 3 < 2 ^ 64)
    (h0 : m.readByte a = some b0) (h1 : m.readByte (a + 1) = some b1) (h2 : m.readByte (a + 2) = some b2)
    (h3 : m.readByte (a + 3) = some b3) : fetchWord m a = .ok (wordOfBytes b0 b1 b2 b3) := by
  unfold fetchWord
  rw [fetchByte_of_readByte (by omega) h0, fetchByte_of_readByte (by omega) h1, fetchByte_of_readByte (by omega) h2,
    fetchByte_of_readByte ha h3]
  rfl

/-- The first byte of a word that nothing has written stops the fetch. -/
theorem fetchWord_of_unwritten {m : Memory} {a k : Nat} (hk : k < 4) (ha : a + k < 2 ^ 64)
    (hbefore : ∀ j, j < k → ∃ b, m.readByte (a + j) = some b) (hnone : m.readByte (a + k) = none) :
    fetchWord m a = .error (.fetchUnwritten (a + k)) := by
  have hok (j : Nat) (hj : j < k) : ∃ b, fetchByte m (a + j) = .ok b := by
    obtain ⟨b, hb⟩ := hbefore j hj
    exact ⟨b, fetchByte_of_readByte (by omega) hb⟩
  have herr := fetchByte_of_unwritten ha hnone
  unfold fetchWord
  match k, hk with
  | 0, _ =>
    rw [show fetchByte m a = _ from herr]
    rfl
  | 1, _ =>
    obtain ⟨b0, (h0 : fetchByte m a = .ok b0)⟩ := hok 0 (by decide)
    rw [h0, herr]
    rfl
  | 2, _ =>
    obtain ⟨b0, (h0 : fetchByte m a = .ok b0)⟩ := hok 0 (by decide)
    obtain ⟨b1, h1⟩ := hok 1 (by decide)
    rw [h0, h1, herr]
    rfl
  | 3, _ =>
    obtain ⟨b0, (h0 : fetchByte m a = .ok b0)⟩ := hok 0 (by decide)
    obtain ⟨b1, h1⟩ := hok 1 (by decide)
    obtain ⟨b2, h2⟩ := hok 2 (by decide)
    rw [h0, h1, h2, herr]
    rfl

/-- A step whose event is the execution by a PE of the system. -/
theorem step_of_nextEvent_execute {s : State} {p : PEId} (h : s.nextEvent = .execute p) (hp : p < s.pes.length) :
    step s = fetchAndExec (s.afterDraw.executing p) := by
  simp only [step, h, runEvent, State.afterDraw_pes, if_pos hp]

theorem fetchAndExec_of_decodeWord {s : State} {w : InstrWord} {i : Instr}
    (hfetch : fetchWord s.mem s.me.pc.toNat = .ok w) (hdecode : decodeWord w = some i) : fetchAndExec s = exec i s := by
  simp only [fetchAndExec, hfetch, hdecode]

theorem decodeWord_of_decodeBytes {b0 b1 b2 b3 : Byte} {i : Instr} {rest : List Byte}
    (h : decodeBytes [b0, b1, b2, b3] = .instr i rest) : decodeWord (wordOfBytes b0 b1 b2 b3) = some i := by
  simp only [decodeBytes] at h
  split at h
  · rename_i hd
    rw [hd, (DecodeResult.instr.inj h).1]
  · cases h

/-- Settles O6. -/
theorem stepRunsTheDecodedInstruction : Obligations.StepRunsTheDecodedInstruction := by
  unfold Obligations.StepRunsTheDecodedInstruction
  intro s p b0 b1 b2 b3 i hevent hp hpc h0 h1 h2 h3 hdecode
  rw [step_of_nextEvent_execute hevent hp]
  refine fetchAndExec_of_decodeWord (w := wordOfBytes b0 b1 b2 b3) ?_ (decodeWord_of_decodeBytes hdecode)
  simpa using fetchWord_of_readByte hpc h0 h1 h2 h3

/-- Settles O7. -/
theorem fetchOfAnUnwrittenByteFaults : Obligations.FetchOfAnUnwrittenByteFaults := by
  unfold Obligations.FetchOfAnUnwrittenByteFaults
  intro s p k hevent hp hk ha hbefore hnone
  rw [step_of_nextEvent_execute hevent hp]
  simp only [fetchAndExec, State.executing_mem, State.afterDraw_mem, State.executing_me, State.afterDraw_pe,
    fetchWord_of_unwritten hk ha hbefore hnone]

/-! ### Placing an instruction -/

/-- A run of bytes leaves the addresses below it alone. -/
theorem Memory.readByte_writeBytes_of_lt (m : Memory) {a a' : Nat} (bs : List Byte) (h : a' < a) :
    (m.writeBytes a bs).readByte a' = m.readByte a' := by
  induction bs generalizing m a with
  | nil => rfl
  | cons b bs ih =>
    rw [Memory.writeBytes, ih _ (Nat.lt_succ_of_lt h), Memory.readByte_writeByte_ne _ _ (Nat.ne_of_lt h)]

/-- A run of bytes is read back, byte by byte. -/
theorem Memory.readByte_writeBytes (m : Memory) (a : Nat) (bs : List Byte) (j : Nat) (h : j < bs.length) :
    (m.writeBytes a bs).readByte (a + j) = some bs[j] := by
  induction bs generalizing m a j with
  | nil => cases h
  | cons b bs ih =>
    rw [Memory.writeBytes]
    cases j with
    | zero =>
      exact (Memory.readByte_writeBytes_of_lt _ bs (Nat.lt_add_one a)).trans (Memory.readByte_writeByte_self m a b)
    | succ j =>
      rw [show a + (j + 1) = a + 1 + j by omega, ih _ _ j (Nat.lt_of_succ_lt_succ h), List.getElem_cons_succ]

/-- A word whose bytes were written is the word that is fetched. -/
theorem fetchWord_writeBytes (m : Memory) {a : Nat} (w : InstrWord) (h : a + 3 < 2 ^ 64) :
    fetchWord (m.writeBytes a (bytesOfWord w)) a = .ok w := by
  have hread (j : Nat) (hj : j < 4) := Memory.readByte_writeBytes m a (bytesOfWord w) j hj
  rw [fetchWord_of_readByte h (hread 0 (by decide)) (hread 1 (by decide)) (hread 2 (by decide)) (hread 3 (by decide))]
  exact congrArg Except.ok (wordOfBytes_extractLsb' w)

/-- Settles O8. -/
theorem placedInstructionRunsNext : Obligations.PlacedInstructionRunsNext := by
  unfold Obligations.PlacedInstructionRunsNext
  intro s i hwf hcur hpc
  have hword : BitVec.ofNat 32 ((encode i).toNat % 2 ^ 32) = encode i := by
    rw [Nat.mod_eq_of_lt (encode i).isLt, BitVec.ofNat_toNat, BitVec.setWidth_eq]
  rw [State.withFetchWord, hword, step_of_nextEvent_execute (s := placeAtPc s _) (p := s.cur) rfl hcur]
  exact fetchAndExec_of_decodeWord (fetchWord_writeBytes s.mem (encode i) hpc) (decodeWord_encode hwf)

end Sys2Proof.Machine
end

section
/-! PROOFS. What one step can do, said once: to the system around the PEs, to a PE, and to the pending records. -/

namespace Sys2Proof.Machine

/-! ### What no instruction and no agent changes -/

/-- The two states agree on everything but what the PEs hold and what is pending. -/
structure SameFrame (s u : State) : Prop where
  cfg : u.cfg = s.cfg
  cur : u.cur = s.cur
  agenda : u.agenda = s.agenda
  draws : u.draws = s.draws
  pesLength : u.pes.length = s.pes.length
  mem : u.mem = s.mem

theorem SameFrame.refl (s : State) : SameFrame s s := ⟨rfl, rfl, rfl, rfl, rfl, rfl⟩

theorem State.sameFrame_setPe (s : State) (p : PEId) (v : PE) : SameFrame s (s.setPe p v) :=
  ⟨rfl, rfl, rfl, rfl, List.length_set, rfl⟩

theorem sameFrame_perform (k : Nat) (p : PEId) (extra : List TLBEntry) (s : State) :
    SameFrame s (perform k p extra s) := by
  rcases perform_cases k p extra s with h | ⟨pd, -, -, h⟩ <;> rw [h]
  · exact .refl s
  · exact ⟨rfl, rfl, rfl, rfl, List.length_set, rfl⟩

theorem sameFrame_fill (p : PEId) (e : TLBEntry) (s : State) : SameFrame s (fill p e s) := by
  rcases fill_cases p e s with h | ⟨-, h⟩ <;> rw [h]
  · exact .refl s
  · exact s.sameFrame_setPe ..

theorem sameFrame_startAccess (p : PEId) (e : TLBEntry) (xs : Bool) (s : State) :
    SameFrame s (startAccess p e xs s) := by
  rcases startAccess_cases p e xs s with h | ⟨-, h⟩ <;> rw [h]
  · exact .refl s
  · exact s.sameFrame_setPe ..

theorem sameFrame_retire (k : Nat) (s : State) : SameFrame s (retire k s) := by
  rcases retire_cases k s with h | ⟨pd, -, -, h⟩ <;> rw [h]
  · exact .refl s
  · exact ⟨rfl, rfl, rfl, rfl, rfl, rfl⟩

theorem Ended.sameFrame {i : Instr} {s u : State} (h : Ended i s u) : SameFrame s u := by
  cases h with
  | returned v h => exact h ▸ s.sameFrame_setPe ..
  | issued op v _ _ _ h => exact h ▸ ⟨rfl, rfl, rfl, rfl, List.length_set, rfl⟩
  | entered target syn _ _ _ h => exact h ▸ s.sameFrame_setPe ..

/-- An event keeps all that, but for the name of the executing PE, which becomes that of the PE which executes. -/
theorem Happened.sameFrame {s u : State} {ev : Event} (h : Happened s u ev) :
    SameFrame s u ∨ ∃ p, ev = .execute p ∧ p < s.pes.length ∧ SameFrame (s.executing p) u := by
  cases h with
  | executed p i hp h => exact .inr ⟨p, rfl, hp, h.sameFrame⟩
  | noSuchPe p _ h => exact .inl (h ▸ .refl s)
  | performed k p extra h => exact .inl (h ▸ sameFrame_perform ..)
  | filled p e h => exact .inl (h ▸ sameFrame_fill ..)
  | evicted p e h => exact .inl (h ▸ s.sameFrame_setPe ..)
  | started p e xs h => exact .inl (h ▸ sameFrame_startAccess ..)
  | finished p k h => exact .inl (h ▸ s.sameFrame_setPe ..)
  | retired k h => exact .inl (h ▸ sameFrame_retire ..)

section step
variable {s u : State}

/-- A step keeps the frame of the state without its event, but for the name of the executing PE. -/
theorem step_sameFrame (h : step s = .next u) :
    SameFrame s.afterDraw u ∨ ∃ p, s.nextEvent = .execute p ∧ p < s.pes.length ∧ SameFrame (s.afterDraw.executing p) u := by
  simpa using (step_next h).sameFrame

theorem step_cfg (h : step s = .next u) : u.cfg = s.cfg := by
  rcases step_sameFrame h with hf | ⟨p, -, -, hf⟩ <;> simpa using hf.cfg

theorem step_pesLength (h : step s = .next u) : u.pes.length = s.pes.length := by
  rcases step_sameFrame h with hf | ⟨p, -, -, hf⟩ <;> simpa using hf.pesLength

theorem step_mem (h : step s = .next u) : u.mem = s.mem := by
  rcases step_sameFrame h with hf | ⟨p, -, -, hf⟩ <;> simpa using hf.mem

theorem step_agenda (h : step s = .next u) : u.agenda = s.afterDraw.agenda := by
  rcases step_sameFrame h with hf | ⟨p, -, -, hf⟩ <;> simpa using hf.agenda

theorem step_cur_lt (h : step s = .next u) (hcur : s.cur < s.pes.length) : u.cur < u.pes.length := by
  rw [step_pesLength h]
  rcases step_sameFrame h with hf | ⟨p, -, hp, hf⟩
  · rwa [hf.cur, State.afterDraw_cur]
  · rwa [hf.cur, State.executing_cur]

end step

/-! ### What becomes of a PE -/

/-- What an event can make of PE `q` in a configuration: the events, and the PE before and after. -/
inductive PEAfter (cfg : Config) (q : PEId) (pe : PE) : Event → PE → Prop
  | untouched (ev : Event) : PEAfter cfg q pe ev pe
  | pcWritten (v : Word64) : PEAfter cfg q pe (.execute q) (pe.setPc v)
  | handlerEntered (target : EL) (syn : Syndrome) (conf : cfg.exceptions = .enterHandler) (notEl0 : target ≠ .el0)
      (implemented : cfg.haveEL pe.pstate.el = true → cfg.haveEL target = true) :
      PEAfter cfg q pe (.execute q) (pe.enterException cfg target syn)
  | performed (k : Nat) (extra : List TLBEntry) (op : TlbiOp) :
      PEAfter cfg q pe (.perform k q extra) (pe.setTlb (tlbAfterPerform cfg op extra pe))
  | filled (e : TLBEntry) (wf : e.wf cfg = true) : PEAfter cfg q pe (.fill q e) (pe.setTlb (pe.tlb.insert e))
  | evicted (e : TLBEntry) : PEAfter cfg q pe (.evict q e) (pe.setTlb (pe.tlb.erase e))
  | accessStarted (e : TLBEntry) (xs : Bool) (held : e ∈ pe.tlb) : PEAfter cfg q pe (.startAccess q e xs) (pe.addAccess e xs)
  | accessFinished (k : Nat) : PEAfter cfg q pe (.finishAccess q k) (pe.setInFlight (pe.inFlight.eraseIdx k))

/-- Replacing PE `p` by what the event makes of it makes of every PE what the event can. -/
theorem PEAfter.of_setPe {s u : State} {p q : PEId} {v : PE} {ev : Event} (hu : u = s.setPe p v)
    (h : PEAfter s.cfg p (s.pe p) ev v) : PEAfter s.cfg q (s.pe q) ev (u.pe q) := by
  subst hu
  rcases s.pe_setPe_cases p q v with ⟨rfl, -, hv⟩ | hv <;> rw [hv]
  · exact h
  · exact .untouched ev

theorem Ended.peAfter {i : Instr} {s u : State} (h : Ended i s u) (q : PEId) :
    PEAfter s.cfg q (s.pe q) (.execute s.cur) (u.pe q) := by
  cases h with
  | returned v h => exact .of_setPe h (.pcWritten v)
  | issued op v _ _ _ h => exact .of_setPe (s := s.addPending op) h (.pcWritten v)
  | entered target syn conf notEl0 implemented h => exact .of_setPe h (.handlerEntered target syn conf notEl0 implemented)

theorem Happened.peAfter {s u : State} {ev : Event} (h : Happened s u ev) (q : PEId) :
    PEAfter s.cfg q (s.pe q) ev (u.pe q) := by
  cases h with
  | executed p i _ h => exact h.peAfter q
  | noSuchPe p _ h => exact h ▸ .untouched _
  | performed k p extra h =>
    rcases perform_cases k p extra s with hs | ⟨pd, -, -, hs⟩ <;> rw [h, hs]
    · exact .untouched _
    · exact .of_setPe (u := s.setPe p _) rfl (.performed k extra pd.op)
  | filled p e h =>
    rcases fill_cases p e s with hs | ⟨hwf, hs⟩ <;> rw [h, hs]
    · exact .untouched _
    · exact .of_setPe rfl (.filled e hwf)
  | evicted p e h => exact .of_setPe h (.evicted e)
  | started p e xs h =>
    rcases startAccess_cases p e xs s with hs | ⟨hheld, hs⟩ <;> rw [h, hs]
    · exact .untouched _
    · exact .of_setPe rfl (.accessStarted e xs hheld)
  | finished p k h => exact .of_setPe h (.accessFinished k)
  | retired k h =>
    rcases retire_cases k s with hs | ⟨pd, -, -, hs⟩ <;> rw [h, hs]
    · exact .untouched _
    · exact .untouched _

/-- What a step makes of every PE. -/
theorem step_peAfter {s u : State} (h : step s = .next u) (q : PEId) :
    PEAfter s.cfg q (s.pe q) s.nextEvent (u.pe q) := by
  simpa using (step_next h).peAfter q

namespace PEAfter

variable {cfg : Config} {q : PEId} {pe v : PE} {ev : Event}

theorem mem_tlb (h : PEAfter cfg q pe ev v) {e : TLBEntry} (he : e ∈ v.tlb) :
    e ∈ pe.tlb ∨ ev = .fill q e ∧ e.wf cfg = true := by
  cases h with
  | untouched | pcWritten | accessStarted | accessFinished => exact .inl he
  | handlerEntered => exact .inl (by simpa using he)
  | performed => exact .inl (mem_tlbAfterPerform.1 he).1
  | filled f wf =>
    rcases List.mem_insert_iff.1 he with rfl | he
    · exact .inr ⟨rfl, wf⟩
    · exact .inl he
  | evicted => exact .inl (List.mem_of_mem_erase he)

theorem mem_tlb_after (h : PEAfter cfg q pe ev v) {e : TLBEntry} (he : e ∈ pe.tlb) :
    e ∈ v.tlb ∨ ev = .evict q e ∨ ∃ k extra, ev = .perform k q extra := by
  cases h with
  | untouched | pcWritten | accessStarted | accessFinished => exact .inl he
  | handlerEntered => exact .inl (by simpa using he)
  | performed k extra => exact .inr (.inr ⟨k, extra, rfl⟩)
  | filled f => exact .inl (List.mem_insert_of_mem he)
  | evicted f =>
    by_cases hf : e = f
    · exact .inr (.inl (hf ▸ rfl))
    · exact .inl ((List.mem_erase_of_ne hf).2 he)

theorem mem_inFlight (h : PEAfter cfg q pe ev v) {a : Access} (ha : a ∈ v.inFlight) :
    a ∈ pe.inFlight ∨ ev = .startAccess q a.entry a.xs ∧ a.entry ∈ pe.tlb ∧ a.serial = pe.started := by
  cases h with
  | untouched | pcWritten | performed | filled | evicted => exact .inl ha
  | handlerEntered => exact .inl (by simpa using ha)
  | accessStarted e xs held =>
    rcases List.mem_append.1 ha with ha | ha
    · exact .inl ha
    · obtain rfl := List.mem_singleton.1 ha
      exact .inr ⟨rfl, held, rfl⟩
  | accessFinished => exact .inl (List.mem_of_mem_eraseIdx ha)

theorem mem_inFlight_after (h : PEAfter cfg q pe ev v) {a : Access} (ha : a ∈ pe.inFlight) :
    a ∈ v.inFlight ∨ ∃ k, ev = .finishAccess q k := by
  cases h with
  | untouched | pcWritten | performed | filled | evicted => exact .inl ha
  | handlerEntered => exact .inl (by simpa using ha)
  | accessStarted => exact .inl (List.mem_append_left _ ha)
  | accessFinished k => exact .inr ⟨k, rfl⟩

theorem started_le (h : PEAfter cfg q pe ev v) : pe.started ≤ v.started := by
  cases h with
  | untouched | pcWritten | performed | filled | evicted | accessFinished => exact Nat.le_refl _
  | handlerEntered => simp
  | accessStarted => exact Nat.le_succ _

/-- Only the PE's own execution writes its registers. -/
theorem sameRegisters (h : PEAfter cfg q pe ev v) (hev : ev ≠ .execute q) : v.SameRegisters pe := by
  cases h with
  | pcWritten | handlerEntered => exact absurd rfl hev
  | untouched | performed | filled | evicted | accessStarted | accessFinished => rfl

/-- Where exceptions are fault outcomes, its own execution writes its pc only. -/
theorem eq_of_execute (h : PEAfter cfg q pe ev v) (hev : ev = .execute q) (hc : cfg.exceptions = .faultOutcome) :
    v = { pe with pc := v.pc } := by
  cases h with
  | untouched | pcWritten => rfl
  | handlerEntered _ _ conf => rw [hc] at conf; cases conf
  | performed | filled | evicted | accessStarted | accessFinished => cases hev

/-- Every event keeps the form of a PE. -/
theorem wf (h : PEAfter cfg q pe ev v) (hpe : pe.wf cfg) : v.wf cfg := by
  obtain ⟨hnodup, htlb, hserial, hflight, hel⟩ := hpe
  cases h with
  | untouched | pcWritten => exact ⟨hnodup, htlb, hserial, hflight, hel⟩
  | handlerEntered target syn _ _ implemented =>
    unfold PE.wf
    simpa using ⟨hnodup, htlb, hserial, hflight, implemented hel⟩
  | performed => exact ⟨hnodup.filter _, fun e he => htlb e (List.mem_filter.1 he).1, hserial, hflight, hel⟩
  | filled e wf =>
    refine ⟨hnodup.insert, fun f hf => ?_, hserial, hflight, hel⟩
    rcases List.mem_insert_iff.1 hf with rfl | hf
    · exact wf
    · exact htlb f hf
  | evicted e => exact ⟨hnodup.erase e, fun f hf => htlb f (List.mem_of_mem_erase hf), hserial, hflight, hel⟩
  | accessStarted e xs held =>
    refine ⟨hnodup, htlb, List.pairwise_append.2 ⟨hserial, List.pairwise_singleton .., fun a ha b hb => ?_⟩,
      fun a ha => ?_, hel⟩
    · obtain rfl := List.mem_singleton.1 hb
      exact (hflight a ha).2
    · rcases List.mem_append.1 ha with ha | ha
      · exact ⟨(hflight a ha).1, Nat.lt_succ_of_lt (hflight a ha).2⟩
      · obtain rfl := List.mem_singleton.1 ha
        exact ⟨htlb e held, Nat.lt_succ_self _⟩
  | accessFinished k =>
    exact ⟨hnodup, htlb, hserial.sublist (List.eraseIdx_sublist ..), fun a ha => hflight a (List.mem_of_mem_eraseIdx ha), hel⟩

end PEAfter

/-! ### What becomes of the pending records -/

/-- What an event can make of the pending records and of the count of issues. -/
inductive PendingAfter (s : State) : Event → List Pending → Nat → Prop
  | untouched (ev : Event) : PendingAfter s ev s.pending s.issues
  | issued (p : PEId) (hp : p < s.pes.length) (op : TlbiOp) (wf : op.wf s.cfg) (issuer : op.issuer = p) :
      PendingAfter s (.execute p) (s.pending ++ [s.newPending op]) (s.issues + 1)
  | performed (k : Nat) (p : PEId) (extra : List TLBEntry) (pd : Pending) (found : s.pending[k]? = some pd)
      (awaits : pd.awaits p = true) :
      PendingAfter s (.perform k p extra)
        (s.pending.set k (pd.markPerformed p (requiredOn s.cfg pd.op (s.pe p)) (s.pe p).started)) s.issues
  | retired (k : Nat) (pd : Pending) (found : s.pending[k]? = some pd) (complete : complete s pd = true) :
      PendingAfter s (.retire k) (s.pending.eraseIdx k) s.issues

theorem complete_congr {s u : State} (h : ∀ p, u.pe p = s.pe p) (pd : Pending) : complete u pd = complete s pd := by
  simp only [complete, h]

theorem State.newPending_congr {s u : State} (hcfg : u.cfg = s.cfg) (hlen : u.pes.length = s.pes.length)
    (hissues : u.issues = s.issues) (op : TlbiOp) : u.newPending op = s.newPending op := by
  simp only [State.newPending, State.domain, State.osh, hcfg, hlen, hissues]

theorem Happened.pendingAfter {s u : State} {ev : Event} (h : Happened s u ev) :
    PendingAfter s ev u.pending u.issues := by
  cases h with
  | executed p i hp h =>
    cases h with
    | returned v h => exact h ▸ .untouched _
    | issued op v wf issuer _ h => exact h ▸ .issued p hp op wf issuer
    | entered _ _ _ _ _ h => exact h ▸ .untouched _
  | noSuchPe p _ h => exact h ▸ .untouched _
  | performed k p extra h =>
    rcases perform_cases k p extra s with hs | ⟨pd, hat, hawaits, hs⟩ <;> rw [h, hs]
    · exact .untouched _
    · exact .performed k p extra pd hat hawaits
  | filled p e h =>
    rcases fill_cases p e s with hs | ⟨_, hs⟩ <;> rw [h, hs] <;> exact .untouched _
  | evicted p e h => exact h ▸ .untouched _
  | started p e xs h =>
    rcases startAccess_cases p e xs s with hs | ⟨_, hs⟩ <;> rw [h, hs] <;> exact .untouched _
  | finished p k h => exact h ▸ .untouched _
  | retired k h =>
    rcases retire_cases k s with hs | ⟨pd, hat, hcomplete, hs⟩ <;> rw [h, hs]
    · exact .untouched _
    · exact .retired k pd hat hcomplete

/-- Taking the event off changes nothing that the records depend on. -/
theorem PendingAfter.of_afterDraw {s : State} {ev : Event} {ps : List Pending} {n : Nat}
    (h : PendingAfter s.afterDraw ev ps n) : PendingAfter s ev ps n := by
  cases h with
  | untouched => simpa using .untouched ev
  | issued p hp op wf issuer =>
    rw [State.newPending_congr (s := s) (by simp) (by simp) (by simp)]
    simpa using .issued p (by simpa using hp) op (by simpa using wf) issuer
  | performed k p extra pd hat hawaits =>
    simpa using .performed k p extra pd (by simpa using hat) hawaits
  | retired k pd hat hcomplete =>
    rw [complete_congr s.afterDraw_pe] at hcomplete
    simpa using .retired k pd (by simpa using hat) hcomplete

/-- What a step makes of the pending records. -/
theorem step_pendingAfter {s u : State} (h : step s = .next u) : PendingAfter s s.nextEvent u.pending u.issues :=
  (step_next h).pendingAfter.of_afterDraw

end Sys2Proof.Machine
end

section
/-! PROOFS. The statements on how the configuration, the registers, the TLBs and the accesses in flight change in a step
(10_state.md sections 1, 2 and 4). -/

namespace Sys2Proof.Machine

/-- Settles O57. -/
theorem stepKeepsTheConfiguration : Obligations.StepKeepsTheConfiguration := by
  unfold Obligations.StepKeepsTheConfiguration
  exact fun s u h => ⟨step_cfg h, step_pesLength h⟩

/-- Settles O58. -/
theorem onlyItsOwnExecutionChangesAPE : Obligations.OnlyItsOwnExecutionChangesAPE := by
  unfold Obligations.OnlyItsOwnExecutionChangesAPE
  exact fun s u q h => ⟨(step_peAfter h q).sameRegisters, (step_peAfter h q).eq_of_execute⟩

/-- Settles O59: the two clauses of O58, by whether the event is the PE's own execution. -/
theorem noStepWritesASystemRegister : Obligations.NoStepWritesASystemRegister := by
  unfold Obligations.NoStepWritesASystemRegister
  intro s u q hc h
  have hafter := step_peAfter h q
  generalize u.pe q = v at hafter
  by_cases hev : s.nextEvent = .execute q
  · rw [hafter.eq_of_execute hev hc]
  · have hsame := hafter.sameRegisters hev
    rw [← hsame]

/-- Settles O51: an entry that appears was filled by the step. -/
theorem noRequiredEntryReturnsButByFill : Obligations.NoRequiredEntryReturnsButByFill := by
  unfold Obligations.NoRequiredEntryReturnsButByFill
  intro s u op p hnone hfill h e he
  rw [step_cfg h]
  rcases (step_peAfter h p).mem_tlb he with hs | ⟨hev, -⟩
  · exact hnone e hs
  · exact hfill e hev

/-! ### Filling and evicting, starting and finishing -/

/-- A step that replaces one PE, if it is there, and changes nothing else. -/
theorem step_replacesPe {s : State} {p : PEId} {v : PE} (h : step s = .next (s.afterDraw.setPe p v))
    (hv : ¬ p < s.pes.length → v = s.pe p) :
    ∃ u, step s = .next u ∧ u.pe p = v ∧ (∀ q, q ≠ p → u.pe q = s.pe q) ∧ u.pending = s.pending ∧ u.mem = s.mem := by
  refine ⟨_, h, ?_, fun q hq => ?_, by simp, by simp⟩
  · by_cases hp : p < s.pes.length
    · exact s.afterDraw.pe_setPe_self p v (by simpa using hp)
    · rw [s.afterDraw.setPe_of_not_lt p v (by simpa using hp), State.afterDraw_pe, hv hp]
  · rw [State.pe_setPe_ne _ _ _ hq, State.afterDraw_pe]

theorem step_of_nextEvent_fill {s : State} {p : PEId} {e : TLBEntry} (hev : s.nextEvent = .fill p e)
    (hwf : e.wf s.cfg = true) : step s = .next (s.afterDraw.setPe p ((s.pe p).setTlb ((s.pe p).tlb.insert e))) := by
  simp [step, hev, runEvent, fill, hwf]

theorem step_of_nextEvent_evict {s : State} {p : PEId} {e : TLBEntry} (hev : s.nextEvent = .evict p e) :
    step s = .next (s.afterDraw.setPe p ((s.pe p).setTlb ((s.pe p).tlb.erase e))) := by
  simp [step, hev, runEvent, evict]

theorem step_of_nextEvent_startAccess {s : State} {p : PEId} {e : TLBEntry} {xs : Bool}
    (hev : s.nextEvent = .startAccess p e xs) (he : e ∈ (s.pe p).tlb) :
    step s = .next (s.afterDraw.setPe p ((s.pe p).addAccess e xs)) := by
  simp [step, hev, runEvent, startAccess, he]

theorem step_of_nextEvent_finishAccess {s : State} {p : PEId} {k : Nat} (hev : s.nextEvent = .finishAccess p k) :
    step s = .next (s.afterDraw.setPe p ((s.pe p).setInFlight ((s.pe p).inFlight.eraseIdx k))) := by
  simp [step, hev, runEvent, finishAccess]

/-- Settles O46. -/
theorem entriesComeByFillAndGoByEvictionOrPerform : Obligations.EntriesComeByFillAndGoByEvictionOrPerform := by
  unfold Obligations.EntriesComeByFillAndGoByEvictionOrPerform
  refine ⟨fun s p e hev hp hwf => ?_, fun s p e hev hnodup => ?_, fun s u p e h => ⟨fun hs hu => ?_, fun hs hu => ?_⟩⟩
  · obtain ⟨u, hu, hpe, hother, hpending, hmem⟩ := step_replacesPe (step_of_nextEvent_fill hev hwf) (absurd hp)
    refine ⟨u, hu, fun f => ?_, hpe ▸ rfl, hother, hpending, hmem⟩
    rw [hpe, PE.setTlb_tlb, List.mem_insert_iff]
  · obtain ⟨u, hu, hpe, hother, hpending, hmem⟩ := step_replacesPe (step_of_nextEvent_evict hev)
      (fun hp => by rw [s.pe_of_not_lt hp]; rfl)
    refine ⟨u, hu, fun f => ?_, hpe ▸ rfl, hother, hpending, hmem⟩
    rw [hpe, PE.setTlb_tlb, hnodup.mem_erase_iff, and_comm]
  · rcases (step_peAfter h p).mem_tlb hu with hs' | ⟨hev, hwf⟩
    · exact absurd hs' hs
    · refine ⟨hev, hwf, fun hbits => ?_⟩
      simp only [TLBEntry.wf, hbits, DescBits.implemented, Bool.and_eq_true] at hwf
      obtain ⟨⟨⟨⟨hd128, -⟩, -⟩, -⟩, -⟩ := hwf
      exact hd128
  · exact ((step_peAfter h p).mem_tlb_after hs).resolve_left hu

/-- Settles O47. -/
theorem accessesStartAndFinish : Obligations.AccessesStartAndFinish := by
  unfold Obligations.AccessesStartAndFinish
  refine ⟨fun s p e xs hev hp he => ?_, fun s p k hev => ?_, fun s u p a h => ⟨fun hs hu => ?_, fun hs hu => ?_⟩⟩
  · obtain ⟨u, hu, hpe, hother, hpending, hmem⟩ := step_replacesPe (step_of_nextEvent_startAccess hev he) (absurd hp)
    exact ⟨u, hu, hpe, hother, hpending, hmem⟩
  · obtain ⟨u, hu, hpe, hother, hpending, hmem⟩ := step_replacesPe (step_of_nextEvent_finishAccess hev)
      (fun hp => by rw [s.pe_of_not_lt hp]; rfl)
    refine ⟨u, hu, ?_, hother, hpending, hmem⟩
    rw [hpe, List.eraseIdx_eq_take_drop_succ]
    rfl
  · exact ((step_peAfter h p).mem_inFlight hu).resolve_left hs
  · exact ((step_peAfter h p).mem_inFlight_after hs).resolve_left hu

end Sys2Proof.Machine
end

section
/-! PROOFS. The statements on the invariant: every step keeps it, and the state after reset has it (10_state.md section 5). -/

namespace Sys2Proof.Machine

/-! ### A step keeps the invariant -/

/-- The form of a PE is kept by a step. -/
theorem step_pe_wf {s u : State} (h : step s = .next u) (hpes : ∀ pe ∈ s.pes, pe.wf s.cfg) :
    ∀ pe ∈ u.pes, pe.wf u.cfg := by
  intro pe hpe
  obtain ⟨q, hq, rfl⟩ := List.getElem_of_mem hpe
  have hlt : q < s.pes.length := step_pesLength h ▸ hq
  have hget : u.pes[q] = u.pe q := by simp [State.pe, List.getD, hq]
  rw [hget, step_cfg h]
  exact (step_peAfter h q).wf (hpes _ (s.pe_mem hlt))

theorem PendingAfter.issues_le {s : State} {ev : Event} {ps : List Pending} {n : Nat} (h : PendingAfter s ev ps n) :
    s.issues ≤ n := by
  cases h with
  | untouched | performed | retired => exact Nat.le_refl _
  | issued => exact Nat.le_succ _

/-- The counts of a step only rise, so a record that was as the spec gives it stays so. -/
theorem step_pending_wf_mono {s u : State} (h : step s = .next u) {pd : Pending} (hpd : pd.wf s) : pd.wf u := by
  exact Pending.wf_mono s u (step_cfg h) (step_pesLength h) (fun p => (step_peAfter h p).started_le)
    (step_pendingAfter h).issues_le hpd

/-- The form of the pending records is kept by a step. -/
theorem step_pending_wf {s u : State} (h : step s = .next u) (hs : ∀ pd ∈ s.pending, pd.wf s) :
    ∀ pd ∈ u.pending, pd.wf u := by
  intro pd hpd
  have hafter := step_pendingAfter h
  generalize hps : u.pending = ps, hn : u.issues = n, s.nextEvent = ev at hafter
  rw [hps] at hpd
  cases hafter with
  | untouched => exact step_pending_wf_mono h (hs pd hpd)
  | issued p hp op wf issuer =>
    rcases List.mem_append.1 hpd with hpd | hpd
    · exact step_pending_wf_mono h (hs pd hpd)
    · obtain rfl := List.mem_singleton.1 hpd
      exact Pending.wf_mono (s.addPending op) u (step_cfg h :) (step_pesLength h :) (fun p => (step_peAfter h p).started_le)
        (Nat.le_of_eq hn.symm) (State.wf_newPending wf (issuer ▸ hp))
  | performed k p extra pd₀ found =>
    rcases List.mem_or_eq_of_mem_set hpd with hpd | rfl
    · exact step_pending_wf_mono h (hs pd hpd)
    · exact step_pending_wf_mono h (Pending.wf_markPerformed p (hs pd₀ (List.mem_of_getElem? found))
        (fun e he => (mem_requiredOn he).2) (Nat.le_refl _))
  | retired k => exact step_pending_wf_mono h (hs pd (List.mem_of_mem_eraseIdx hpd))

/-- A step keeps the numbers of the pending records in rising order. -/
theorem step_pending_pairwise {s u : State} (h : step s = .next u) (hs : ∀ pd ∈ s.pending, pd.serial < s.issues)
    (hrise : s.pending.Pairwise fun a b => a.serial < b.serial) : u.pending.Pairwise fun a b => a.serial < b.serial := by
  have hafter := step_pendingAfter h
  generalize u.pending = ps, u.issues = n, s.nextEvent = ev at hafter ⊢
  cases hafter with
  | untouched => exact hrise
  | issued p hp op =>
    refine List.pairwise_append.2 ⟨hrise, List.pairwise_singleton .., fun a ha b hb => ?_⟩
    obtain rfl := List.mem_singleton.1 hb
    exact hs a ha
  | performed k p extra pd found =>
    obtain ⟨hk, rfl⟩ := List.getElem?_eq_some_iff.1 found
    rw [← List.pairwise_map (f := Pending.serial) (R := (· < ·))] at hrise ⊢
    rwa [List.map_set, Pending.markPerformed_serial, ← List.getElem_map Pending.serial (h := by simpa using hk),
      List.set_getElem_self]
  | retired k => exact hrise.sublist (List.eraseIdx_sublist ..)

/-- Settles O54, part by part of the invariant. -/
theorem stepKeepsTheInvariant : Obligations.StepKeepsTheInvariant := by
  unfold Obligations.StepKeepsTheInvariant
  intro s u hs h
  obtain ⟨hmem, hcur, hpes, hpending, hrise⟩ := hs
  exact ⟨step_mem h ▸ hmem, step_cur_lt h hcur, step_pe_wf h hpes, step_pending_wf h hpending,
    step_pending_pairwise h (fun pd hpd => (hpending pd hpd).1) hrise⟩

/-! ### Reset -/

/-- A PE after reset holds well-formed entries only, and its accesses are numbered in order. -/
theorem PE.wf_reset (p : PEId) : (PE.reset p).wf Config.reset := by
  refine ⟨List.nodup_dedup _, fun e he => ?_, Access.pairwise_numberFrom .., fun a ha => ?_, rfl⟩
  · exact (List.mem_filter.1 (List.mem_dedup.1 he)).2
  · obtain ⟨-, hlt, b, hb, hentry⟩ := Access.mem_numberFrom ha
    refine ⟨hentry ▸ (List.mem_filter.1 hb).2, ?_⟩
    simpa [PE.reset, PE.fresh] using hlt

/-- Settles O55. -/
theorem resetMeetsTheInvariant : Obligations.ResetMeetsTheInvariant := by
  unfold Obligations.ResetMeetsTheInvariant
  refine ⟨Memory.wf_reset, by decide, fun pe hpe => ?_, fun pd hpd => (List.not_mem_nil hpd).elim, List.Pairwise.nil⟩
  rcases List.mem_cons.1 hpe with rfl | hpe
  · exact PE.wf_reset 0
  · exact List.mem_singleton.1 hpe ▸ PE.wf_reset 1

/-- Settles O56: whatever its TLB and its accesses in flight, a fresh PE holds these registers. -/
theorem resetHasNothingPending : Obligations.ResetHasNothingPending := by
  unfold Obligations.ResetHasNothingPending
  refine ⟨rfl, rfl, fun p hp => ?_⟩
  obtain ⟨tlb, inFlight, hfresh⟩ : ∃ tlb inFlight, State.reset.pe p = PE.fresh tlb inFlight := by
    match p, hp with
    | 0, _ => exact ⟨_, _, rfl⟩
    | 1, _ => exact ⟨_, _, rfl⟩
  rw [hfresh]
  refine ⟨rfl, rfl, fun t => ?_, rfl, rfl, rfl, rfl, rfl, rfl, fun el => ?_⟩
  · unfold PE.readX
    split
    · exact Vector.getElem_replicate _
    · rfl
  · cases el with
    | el0 | el1 | el2 | el3 => exact ⟨rfl, rfl, rfl, rfl⟩

end Sys2Proof.Machine
end

section
/-! PROOFS. The statements on one `Perform`: what it removes and marks, and what it leaves alone (40_invalidation_operation.md
sections 3 and 4). -/

namespace Sys2Proof.Machine

/-! ### What `Perform` makes of the PE and of the record, where the record waits for the PE -/

section awaits
variable {s : State} {k : Nat} {p : PEId} {pd : Pending} (extra : List TLBEntry)
  (found : s.pending[k]? = some pd) (awaits : pd.awaits p = true)
include found awaits

theorem perform_pending_of_awaits : (perform k p extra s).pending =
    s.pending.set k (pd.markPerformed p (requiredOn s.cfg pd.op (s.pe p)) (s.pe p).started) := by
  rw [perform_of_awaits extra found awaits, State.setPending_pending]

theorem perform_record_of_awaits : (perform k p extra s).pending[k]? =
    some (pd.markPerformed p (requiredOn s.cfg pd.op (s.pe p)) (s.pe p).started) := by
  obtain ⟨hk, -⟩ := List.getElem?_eq_some_iff.1 found
  rw [perform_pending_of_awaits extra found awaits, List.getElem?_set_self hk]

theorem perform_pe_of_awaits (hp : p < s.pes.length) : (perform k p extra s).pe p =
    (s.pe p).setTlb (tlbAfterPerform s.cfg pd.op extra (s.pe p)) := by
  rw [perform_of_awaits extra found awaits, State.setPending_pe, s.pe_setPe_self p _ hp]

end awaits

theorem perform_pe_of_ne (k : Nat) {p q : PEId} (extra : List TLBEntry) (s : State) (h : q ≠ p) :
    (perform k p extra s).pe q = s.pe q :=
  (perform_pe_cases k p q extra s).resolve_right fun hc => h hc.1

theorem mem_requiredOn_iff {cfg : Config} {op : TlbiOp} {pe : PE} {e : TLBEntry} :
    e ∈ requiredOn cfg op pe ↔ e ∈ pe.tlb ∧ eel2Excepted op pe = false ∧ required cfg op e = true := by
  unfold requiredOn
  split <;> simp_all

/-- Settles O37. -/
theorem performRemovesWhatIsRequired : Obligations.PerformRemovesWhatIsRequired := by
  unfold Obligations.PerformRemovesWhatIsRequired
  intro s k p extra pd found awaits hp
  refine ⟨fun e he => ?_, _, perform_record_of_awaits extra found awaits, rfl, rfl, pd.awaits_markPerformed ..,
    pd.map_pe_markPerformed .., fun q hq hne => ?_, fun q hq => ?_⟩
  · rw [perform_pe_of_awaits extra found awaits hp] at he
    exact ⟨(mem_tlbAfterPerform.1 he).1, fun hx => required_of_mem_tlbAfterPerform hx he⟩
  · exact List.mem_map.2 ⟨q, hq, if_neg (by rcases hne with h | h <;> simp [h])⟩
  · rcases Pending.mem_markPerformed hq with ⟨hq, -⟩ | rfl
    · exact .inl hq
    · exact .inr ⟨rfl, rfl, rfl, fun e => mem_requiredOn_iff⟩

/-- Settles O38: choose as further entries the set that is to go. -/
theorem performMayRemoveAnySetAboveTheRequired : Obligations.PerformMayRemoveAnySetAboveTheRequired := by
  unfold Obligations.PerformMayRemoveAnySetAboveTheRequired
  intro s k p pd gone found awaits hp hreq hgone
  refine ⟨gone, fun e => ?_⟩
  rw [perform_pe_of_awaits gone found awaits hp, PE.setTlb_tlb, mem_tlbAfterPerform]
  exact ⟨fun ⟨he, _, hn⟩ => ⟨he, hn⟩, fun ⟨he, hn⟩ => ⟨he, fun hr => hn (hreq e hr), hn⟩⟩

/-! ### Where nothing is required -/

theorem tlbAfterPerform_nil {cfg : Config} {op : TlbiOp} {pe : PE} (h : requiredOn cfg op pe = []) :
    tlbAfterPerform cfg op [] pe = pe.tlb := by
  simp [tlbAfterPerform, h]

/-- A `Perform` of which nothing is required and that chooses nothing more leaves every PE as it was. -/
theorem perform_pe_of_requiredOn_nil {s : State} {k : Nat} {p : PEId} {pd : Pending} (found : s.pending[k]? = some pd)
    (h : requiredOn s.cfg pd.op (s.pe p) = []) (q : PEId) : (perform k p [] s).pe q = s.pe q := by
  rcases perform_cases k p [] s with hs | ⟨pd', found', -, hs⟩ <;> rw [hs]
  obtain rfl := Option.some.inj (found.symm.trans found')
  rw [State.setPending_pe, tlbAfterPerform_nil h]
  exact congrArg (·.pe q) (s.setPe_eq_self p _ rfl)

theorem requiredOn_of_excepted {cfg : Config} {op : TlbiOp} {pe : PE} (h : eel2Excepted op pe = true) :
    requiredOn cfg op pe = [] :=
  if_pos h

/-- Settles O39. -/
theorem differingEel2RequiresNothing : Obligations.DifferingEel2RequiresNothing := by
  unfold Obligations.DifferingEel2RequiresNothing
  intro s k p pd found awaits hregime hsecurity heel2
  have hnil : requiredOn s.cfg pd.op (s.pe p) = [] :=
    requiredOn_of_excepted (by simp [eel2Excepted, hregime, hsecurity, heel2])
  exact ⟨hnil, perform_pe_of_requiredOn_nil found hnil, _, perform_record_of_awaits [] found awaits,
    pd.awaits_markPerformed ..⟩

/-- Settles O43: the step is `perform`, and where nothing is required there is nothing to remove and nothing to wait for. -/
theorem performCannotFail : Obligations.PerformCannotFail := by
  unfold Obligations.PerformCannotFail
  refine ⟨fun s k p extra hev => ⟨_, step_of_nextEvent_perform hev⟩, fun s k p pd found hnone => ?_,
    fun s pd hdone => complete_iff.2 fun q hq => ?_⟩
  · have hnil : requiredOn s.cfg pd.op (s.pe p) = [] := by
      refine List.eq_nil_iff_forall_not_mem.2 fun e he => ?_
      obtain ⟨hmem, hr⟩ := mem_requiredOn he
      rw [hnone e hmem] at hr
      cases hr
    rw [perform_pe_of_requiredOn_nil found hnil]
  · obtain ⟨hperformed, hrequired⟩ := hdone q hq
    refine ⟨hperformed, fun a _ ha => ?_⟩
    simp [Progress.removedEntryOf, hrequired] at ha

/-! ### Where the record does not wait for the PE -/

/-- A record as the spec gives it has its flags for the PEs of its domain. -/
theorem Pending.map_pe_of_wf {s : State} {pd : Pending} (hwf : pd.wf s) :
    pd.progress.map Progress.pe = s.domain pd.op := by
  obtain ⟨-, -, -, hdomain, -⟩ := hwf
  exact hdomain

/-- A record as the spec gives it waits for PEs of its domain only. -/
theorem Pending.awaits_of_not_mem_domain {s : State} {pd : Pending} (hwf : pd.wf s) {p : PEId} (hp : p ∉ s.domain pd.op) :
    pd.awaits p = false := by
  refine Bool.eq_false_iff.2 fun h => hp ?_
  obtain ⟨q, hq, rfl, -⟩ := Pending.awaits_iff.1 h
  exact Pending.map_pe_of_wf hwf ▸ List.mem_map_of_mem hq

/-- Settles O41. -/
theorem outsideTheDomainNothingIsPerformed : Obligations.OutsideTheDomainNothingIsPerformed := by
  unfold Obligations.OutsideTheDomainNothingIsPerformed
  intro s k p extra pd hinv found hp
  obtain ⟨-, -, -, hpending, -⟩ := hinv
  exact perform_of_not_awaits extra found
    (Pending.awaits_of_not_mem_domain (hpending pd (List.mem_of_getElem? found)) hp)

/-! ### Two PEs -/

theorem State.setPe_comm (s : State) {p q : PEId} (v w : PE) (h : p ≠ q) :
    (s.setPe p v).setPe q w = (s.setPe q w).setPe p v := by
  simp only [State.setPe, List.set_comm _ _ h]

theorem perform_of_no_record {s : State} {k : Nat} (p : PEId) (extra : List TLBEntry) (h : s.pending[k]? = none) :
    perform k p extra s = s := by
  simp only [perform, h]

/-- Whether the record waits for another PE is the same after `Perform`. -/
theorem exists_record_perform {s : State} {k : Nat} {p q : PEId} {pd : Pending} (extra : List TLBEntry)
    (found : s.pending[k]? = some pd) (h : q ≠ p) :
    ∃ pd', (perform k p extra s).pending[k]? = some pd' ∧ pd'.awaits q = pd.awaits q := by
  cases hp : pd.awaits p with
  | false => exact ⟨pd, by rw [perform_of_not_awaits extra found hp, found], rfl⟩
  | true => exact ⟨_, perform_record_of_awaits extra found hp, pd.awaits_markPerformed_ne _ _ h⟩

/-- Performing on two PEs that the record waits for, written out: two TLBs and two marks. -/
theorem perform_perform_of_awaits {s : State} {k : Nat} {p q : PEId} {pd : Pending} (ep eq : List TLBEntry)
    (found : s.pending[k]? = some pd) (hp : pd.awaits p = true) (hq : pd.awaits q = true) (h : q ≠ p) :
    perform k q eq (perform k p ep s) =
      ((s.setPe p ((s.pe p).setTlb (tlbAfterPerform s.cfg pd.op ep (s.pe p)))).setPe q
          ((s.pe q).setTlb (tlbAfterPerform s.cfg pd.op eq (s.pe q)))).setPending
        (s.pending.set k ((pd.markPerformed p (requiredOn s.cfg pd.op (s.pe p)) (s.pe p).started).markPerformed q
          (requiredOn s.cfg pd.op (s.pe q)) (s.pe q).started)) := by
  rw [perform_of_awaits eq (perform_record_of_awaits ep found hp) ((pd.awaits_markPerformed_ne _ _ h).trans hq),
    perform_pending_of_awaits ep found hp, perform_pe_of_ne k ep s h, perform_cfg, List.set_set,
    perform_of_awaits ep found hp]
  rfl

/-- Settles O42: where one of the two does nothing there is one `Perform`, else the TLBs and the marks commute. -/
theorem performOrderIsImmaterial : Obligations.PerformOrderIsImmaterial := by
  unfold Obligations.PerformOrderIsImmaterial
  intro s k p q ep eq hne
  cases found : s.pending[k]? with
  | none => simp only [perform_of_no_record _ _ found]
  | some pd =>
    cases hp : pd.awaits p with
    | false =>
      obtain ⟨pd', found', hp'⟩ := exists_record_perform eq found hne
      rw [perform_of_not_awaits ep found hp, perform_of_not_awaits ep found' (hp'.trans hp)]
    | true =>
      cases hq : pd.awaits q with
      | false =>
        obtain ⟨pd', found', hq'⟩ := exists_record_perform ep found hne.symm
        rw [perform_of_not_awaits eq found hq, perform_of_not_awaits eq found' (hq'.trans hq)]
      | true =>
        rw [perform_perform_of_awaits ep eq found hp hq hne.symm, perform_perform_of_awaits eq ep found hq hp hne,
          s.setPe_comm _ _ hne, pd.markPerformed_comm _ _ _ _ hne]

end Sys2Proof.Machine
end

section
/-! PROOFS. The statements on the domain and on completion (40_invalidation_operation.md sections 3 and 4). -/

namespace Sys2Proof.Machine

/-! ### The domain -/

theorem State.mem_osh {s : State} {p q : PEId} :
    q ∈ s.osh p ↔ q < s.pes.length ∧ (q = p ∨ (p, q) ∈ s.cfg.osh) := by
  simp [State.osh]

theorem State.nodup_osh (s : State) (p : PEId) : (s.osh p).Nodup := List.nodup_range.filter _

/-- Settles O27. -/
theorem domainHoldsTheIssuer : Obligations.DomainHoldsTheIssuer := by
  unfold Obligations.DomainHoldsTheIssuer
  exact fun s p hp => ⟨State.mem_osh.2 ⟨hp, .inl rfl⟩, s.nodup_osh p, fun q => State.mem_osh⟩

/-! ### Completion -/

theorem waits_eq_false_iff {attr : TlbiAttr} {a : Access} : waits attr a = false ↔ attr = .excludeXS ∧ a.xs = true := by
  cases attr <;> simp [waits]

theorem Progress.removedEntryOf_iff {q : Progress} {a : Access} :
    q.removedEntryOf a = true ↔ a.serial < q.before ∧ a.entry ∈ q.required := by
  simp [Progress.removedEntryOf]

/-- A record as the spec gives it has one flag for a PE. -/
theorem Pending.progress_unique {s : State} {pd : Pending} (hwf : pd.wf s) {q r : Progress} (hq : q ∈ pd.progress)
    (hr : r ∈ pd.progress) (h : q.pe = r.pe) : q = r := by
  have hnodup : (pd.progress.map Progress.pe).Nodup := Pending.map_pe_of_wf hwf ▸ s.nodup_osh _
  exact List.inj_on_of_nodup_map hnodup hq hr h

/-- Settles O44: the flags of a record as the spec gives it are one for each PE of its domain. -/
theorem completeMeansPerformedAndDrained : Obligations.CompleteMeansPerformedAndDrained := by
  unfold Obligations.CompleteMeansPerformedAndDrained
  intro s pd hwf
  have hdomain := Pending.map_pe_of_wf hwf
  simp only [complete_iff, Progress.removedEntryOf_iff, waits_eq_false_iff, and_imp]
  constructor
  · intro hc p hp
    obtain ⟨q, hq, rfl⟩ := List.mem_map.1 (hdomain ▸ hp)
    exact ⟨q, hq, rfl, hc q hq⟩
  · intro hc q hq
    obtain ⟨r, hr, hpe, hdone⟩ := hc q.pe (hdomain ▸ List.mem_map_of_mem hq)
    rwa [Pending.progress_unique hwf hr hq hpe] at hdone

/-- Settles O48: an access that comes into flight is numbered past those that completion waits for. -/
theorem completionIsNotUndone : Obligations.CompletionIsNotUndone := by
  unfold Obligations.CompletionIsNotUndone
  intro s u pd hwf h
  obtain ⟨-, -, -, -, hprogress⟩ := hwf
  have hold : ∀ q ∈ pd.progress, ∀ a ∈ (u.pe q.pe).inFlight, q.removedEntryOf a = true →
      a ∈ (s.pe q.pe).inFlight := by
    intro q hq a ha hremoved
    rcases (step_peAfter h q.pe).mem_inFlight ha with ha | ⟨-, -, hserial⟩
    · exact ha
    · obtain ⟨-, hbefore, -⟩ := hprogress q hq
      obtain ⟨hlt, -⟩ := Progress.removedEntryOf_iff.1 hremoved
      omega
  refine ⟨fun q hq _ => hold q hq, fun hc => ?_⟩
  rw [complete_iff] at hc ⊢
  intro q hq
  obtain ⟨hperformed, hdrained⟩ := hc q hq
  exact ⟨hperformed, fun a ha hremoved => hdrained a (hold q hq a ha hremoved) hremoved⟩

/-! ### A record along a step -/

/-- The record is the later state of the other: the same number, operation and PEs, and every flag that was set. -/
structure Pending.Follows (pd' pd : Pending) : Prop where
  serial : pd'.serial = pd.serial
  op : pd'.op = pd.op
  pes : pd'.progress.map Progress.pe = pd.progress.map Progress.pe
  flags : ∀ q ∈ pd.progress, q.performed = true → q ∈ pd'.progress
  awaits : ∀ p, pd.awaits p = false → pd'.awaits p = false

theorem Pending.Follows.refl (pd : Pending) : pd.Follows pd := ⟨rfl, rfl, rfl, fun _ hq _ => hq, fun _ h => h⟩

theorem Pending.Follows.trans {a b c : Pending} (hab : b.Follows a) (hbc : c.Follows b) : c.Follows a :=
  ⟨hbc.serial.trans hab.serial, hbc.op.trans hab.op, hbc.pes.trans hab.pes,
    fun q hq hp => hbc.flags q (hab.flags q hq hp) hp, fun p h => hbc.awaits p (hab.awaits p h)⟩

theorem Pending.follows_markPerformed (pd : Pending) (p : PEId) (req : List TLBEntry) (before : Nat) :
    (pd.markPerformed p req before).Follows pd := by
  refine ⟨rfl, rfl, pd.map_pe_markPerformed .., fun q hq hp => Pending.mem_markPerformed_of_performed hq hp,
    fun r hr => ?_⟩
  by_cases h : r = p
  · exact h ▸ pd.awaits_markPerformed ..
  · rw [pd.awaits_markPerformed_ne _ _ h, hr]

/-- A member of a list is the one at a place, or stands at another. -/
theorem eq_or_getElem?_of_mem {α : Type} {l : List α} {k : Nat} {a x : α} (found : l[k]? = some a) (hx : x ∈ l) :
    x = a ∨ ∃ j, j ≠ k ∧ l[j]? = some x := by
  obtain ⟨j, hj⟩ := List.mem_iff_getElem?.1 hx
  by_cases h : j = k
  · exact .inl (Option.some.inj (hj.symm.trans (h ▸ found)))
  · exact .inr ⟨j, h, hj⟩

namespace PendingAfter
variable {s : State} {ev : Event} {ps : List Pending} {n : Nat}

/-- Every record goes on, or it was complete and was dropped. -/
theorem goes_on (h : PendingAfter s ev ps n) {pd : Pending} (hpd : pd ∈ s.pending) :
    (complete s pd = true ∧ ∃ k, ev = .retire k) ∨ ∃ pd' ∈ ps, pd'.Follows pd := by
  cases h with
  | untouched => exact .inr ⟨pd, hpd, .refl pd⟩
  | issued => exact .inr ⟨pd, List.mem_append_left _ hpd, .refl pd⟩
  | performed k p extra pd₀ found =>
    right
    rcases eq_or_getElem?_of_mem found hpd with rfl | ⟨j, hjk, hj⟩
    · obtain ⟨hk, -⟩ := List.getElem?_eq_some_iff.1 found
      exact ⟨_, List.mem_set hk _, pd.follows_markPerformed ..⟩
    · exact ⟨pd, List.mem_of_getElem? ((List.getElem?_set_ne hjk.symm).trans hj), .refl pd⟩
  | retired k pd₀ found hcomplete =>
    rcases eq_or_getElem?_of_mem found hpd with rfl | hj
    · exact .inl ⟨hcomplete, k, rfl⟩
    · exact .inr ⟨pd, List.mem_eraseIdx_iff_getElem?.2 hj, .refl pd⟩

/-- Every record was there, or it is new. -/
theorem comes_from (h : PendingAfter s ev ps n) {pd' : Pending} (hpd : pd' ∈ ps) :
    pd'.serial = s.issues ∨ ∃ pd ∈ s.pending, pd'.Follows pd := by
  cases h with
  | untouched => exact .inr ⟨pd', hpd, .refl pd'⟩
  | issued p hp op =>
    rcases List.mem_append.1 hpd with hpd | hpd
    · exact .inr ⟨pd', hpd, .refl pd'⟩
    · exact .inl (List.mem_singleton.1 hpd ▸ rfl)
  | performed k p extra pd₀ found =>
    right
    rcases List.mem_or_eq_of_mem_set hpd with hpd | rfl
    · exact ⟨pd', hpd, .refl pd'⟩
    · exact ⟨pd₀, List.mem_of_getElem? found, pd₀.follows_markPerformed ..⟩
  | retired k => exact .inr ⟨pd', List.mem_of_mem_eraseIdx hpd, .refl pd'⟩

end PendingAfter

theorem retire_of_record {s : State} {k : Nat} {pd : Pending} (found : s.pending[k]? = some pd) :
    retire k s = if complete s pd then s.setPending (s.pending.eraseIdx k) else s := by
  simp only [retire, found]

/-- Settles O49. -/
theorem pendingInvalidationsAreNeverCancelled : Obligations.PendingInvalidationsAreNeverCancelled := by
  unfold Obligations.PendingInvalidationsAreNeverCancelled
  refine ⟨fun s u pd h hpd => ?_, fun s k pd hev found => ?_⟩
  · refine ((step_pendingAfter h).goes_on hpd).imp_right fun ⟨pd', hpd', hf⟩ => ?_
    exact ⟨pd', hpd', hf.serial, hf.op, hf.pes, hf.flags⟩
  · have hretire := retire_of_record (s := s.afterDraw) (by simpa using found)
    rw [complete_congr s.afterDraw_pe, State.afterDraw_pending, List.eraseIdx_eq_take_drop_succ] at hretire
    refine ⟨retire k s.afterDraw, by simp only [step, hev, runEvent], ?_⟩
    rw [hretire]
    split <;> simp

end Sys2Proof.Machine
end

section
/-! PROOFS. The statements on runs: what stays gone, and that every invalidation comes to be performed
(40_invalidation_operation.md section 4). -/

namespace Sys2Proof.Machine

/-! ### Runs of settled events -/

theorem run_succ_of_step {M : Host.Core} {n : Nat} {s v : M.State} (h : M.step s = .next v) :
    M.run (n + 1) s = M.run n v := by
  rw [Host.Core.run, h]

theorem run_succ_next {M : Host.Core} {n : Nat} {s u : M.State} (h : M.run (n + 1) s = .next u) :
    ∃ v, M.step s = .next v ∧ M.run n v = .next u := by
  rw [Host.Core.run] at h
  split at h
  · exact ⟨_, ‹_›, h⟩
  · cases h
  · cases h

section agenda
variable {s : State} {ev : Event} {later : List Event} (h : s.agenda = ev :: later)
include h

theorem nextEvent_of_agenda : s.nextEvent = ev := by simp only [State.nextEvent, h]

theorem step_agenda_of_cons {v : State} (hv : step s = .next v) : v.agenda = later := by
  rw [step_agenda hv]
  simp only [State.afterDraw, h]

end agenda

/-! ### What stays gone -/

/-- A TLB that holds no required entry holds none after settled events that fill none. -/
theorem run_noRequired {op : TlbiOp} {p : PEId} {later : List Event} {s u : State} (hagenda : s.agenda = later)
    (hnone : ∀ e ∈ (s.pe p).tlb, required s.cfg op e = false) (hfill : ∀ e, .fill p e ∈ later → required s.cfg op e = false)
    (hrun : core.run later.length s = .next u) : ∀ e ∈ (u.pe p).tlb, required s.cfg op e = false := by
  induction later generalizing s with
  | nil =>
    obtain rfl : s = u := Host.Outcome.next.inj hrun
    exact hnone
  | cons ev later ih =>
    obtain ⟨v, (hv : step s = .next v), hrun⟩ := run_succ_next hrun
    have hev := nextEvent_of_agenda hagenda
    have hv_none := noRequiredEntryReturnsButByFill s v op p hnone
      (fun e he => hfill e (by rw [← he, hev]; exact List.mem_cons_self)) hv
    have hcfg := step_cfg hv
    rw [← hcfg]
    exact ih (step_agenda_of_cons hagenda hv) hv_none (fun e he => hcfg ▸ hfill e (List.mem_cons_of_mem _ he)) hrun

/-- Settles O50: `Perform` leaves no required entry, and the events after it bring none back. -/
theorem requiredEntriesStayGoneUnlessRefilled : Obligations.RequiredEntriesStayGoneUnlessRefilled := by
  unfold Obligations.RequiredEntriesStayGoneUnlessRefilled
  intro s u k p extra later pd hagenda found awaits hp hx hfill hrun
  obtain ⟨v, (hv : step s = .next v), hrun⟩ := run_succ_next hrun
  have hcfg := step_cfg hv
  have hlater := step_agenda_of_cons hagenda hv
  rw [step_of_nextEvent_perform (nextEvent_of_agenda hagenda)] at hv
  obtain rfl := Host.Outcome.next.inj hv
  rw [← hcfg]
  refine run_noRequired hlater (fun e he => ?_) (fun e he => hcfg ▸ hfill e he) hrun
  rw [perform_pe_of_awaits extra (by simpa using found) awaits (by simpa using hp)] at he
  rw [hcfg]
  simpa using required_of_mem_tlbAfterPerform (by simpa using hx) he

/-! ### Performing everywhere -/

/-- Between the two states the record at place `k` was performed on the PEs listed, and nothing else was done to a PE. -/
structure PerformedOn (k : Nat) (ps : List PEId) (s u : State) (pd pd' : Pending) : Prop where
  cfg : u.cfg = s.cfg
  pesLength : u.pes.length = s.pes.length
  found : u.pending[k]? = some pd'
  follows : pd'.Follows pd
  marked : ∀ p ∈ ps, pd'.awaits p = false
  unmarked : ∀ p, p ∉ ps → pd'.awaits p = pd.awaits p
  pe : ∀ p, u.pe p = (s.pe p).setTlb (u.pe p).tlb
  shrinks : ∀ p, ∀ e ∈ (u.pe p).tlb, e ∈ (s.pe p).tlb
  gone : ∀ p ∈ ps, p < s.pes.length → pd.awaits p = true → eel2Excepted pd.op (s.pe p) = false →
    ∀ e ∈ (u.pe p).tlb, required s.cfg pd.op e = false

theorem performedOn_nil {k : Nat} {s : State} {pd : Pending} (found : s.pending[k]? = some pd) :
    PerformedOn k [] s s pd pd where
  cfg := rfl
  pesLength := rfl
  found := found
  follows := .refl pd
  marked _ h := absurd h List.not_mem_nil
  unmarked _ _ := rfl
  pe _ := rfl
  shrinks _ _ h := h
  gone _ h := absurd h List.not_mem_nil

/-- One `Perform`, whether or not the record waits for the PE. -/
theorem performedOn_perform {k : Nat} {s : State} {pd : Pending} (p : PEId) (found : s.pending[k]? = some pd) :
    ∃ pd', PerformedOn k [p] s (perform k p [] s) pd pd' := by
  cases awaits : pd.awaits p with
  | false =>
    rw [perform_of_not_awaits [] found awaits]
    exact ⟨pd, { performedOn_nil found with
      marked := fun q hq => List.mem_singleton.1 hq ▸ awaits
      unmarked := fun _ _ => rfl
      gone := fun q hq _ ha => by rw [List.mem_singleton.1 hq, awaits] at ha; cases ha }⟩
  | true =>
    have hpe (q : PEId) : (perform k p [] s).pe q = (s.pe q).setTlb ((perform k p [] s).pe q).tlb := by
      rcases perform_pe_cases k p q [] s with h | ⟨-, l, h⟩ <;> rw [h] <;> rfl
    refine ⟨_, {
      cfg := perform_cfg ..
      pesLength := (sameFrame_perform ..).pesLength
      found := perform_record_of_awaits [] found awaits
      follows := pd.follows_markPerformed ..
      marked := fun q hq => List.mem_singleton.1 hq ▸ pd.awaits_markPerformed ..
      unmarked := fun q hq => pd.awaits_markPerformed_ne _ _ (fun h => hq (List.mem_singleton.2 h))
      pe := hpe
      shrinks := fun q e he => ?_
      gone := fun q hq hlt _ hx e he => ?_ }⟩
    · by_cases hq : q = p
      · by_cases hlt : p < s.pes.length
        · rw [hq, perform_pe_of_awaits [] found awaits hlt] at he
          exact hq ▸ (mem_tlbAfterPerform.1 he).1
        · rw [hq, State.pe_of_not_lt _ (by rwa [(sameFrame_perform ..).pesLength])] at he
          cases he
      · rwa [perform_pe_of_ne k [] s hq] at he
    · obtain rfl := List.mem_singleton.1 hq
      rw [perform_pe_of_awaits [] found awaits hlt] at he
      exact required_of_mem_tlbAfterPerform hx he

theorem PerformedOn.cons {k : Nat} {p : PEId} {ps : List PEId} {s v u : State} {pd pd₁ pd' : Pending}
    (h₁ : PerformedOn k [p] s v pd pd₁) (h₂ : PerformedOn k ps v u pd₁ pd') : PerformedOn k (p :: ps) s u pd pd' where
  cfg := h₂.cfg.trans h₁.cfg
  pesLength := h₂.pesLength.trans h₁.pesLength
  found := h₂.found
  follows := h₁.follows.trans h₂.follows
  marked q hq := by
    rcases List.mem_cons.1 hq with rfl | hq
    · exact h₂.follows.awaits q (h₁.marked q (List.mem_singleton.2 rfl))
    · exact h₂.marked q hq
  unmarked q hq := by
    simp only [List.mem_cons, not_or] at hq
    rw [h₂.unmarked q hq.2, h₁.unmarked q (by simpa using hq.1)]
  pe q := by rw [h₂.pe q, h₁.pe q]; rfl
  shrinks q e he := h₁.shrinks q e (h₂.shrinks q e he)
  gone q hq hlt ha hx e he := by
    by_cases hqp : q = p
    · exact h₁.gone q (List.mem_singleton.2 hqp) hlt ha hx e (h₂.shrinks q e he)
    · have hq := (List.mem_cons.1 hq).resolve_left hqp
      have ha₁ : pd₁.awaits q = true := by rw [h₁.unmarked q (by simpa using hqp), ha]
      have hx₁ : eel2Excepted pd₁.op (v.pe q) = false := by rw [h₁.follows.op, h₁.pe q]; exact hx
      have hgone := h₂.gone q hq (h₁.pesLength ▸ hlt) ha₁ hx₁ e he
      rwa [h₁.cfg, h₁.follows.op] at hgone

/-- A run whose settled events are the `Perform` steps of one record. -/
theorem run_performAll {k : Nat} {ps : List PEId} {later : List Event} {s : State} {pd : Pending}
    (hagenda : s.agenda = performAll k ps ++ later) (found : s.pending[k]? = some pd) :
    ∃ u pd', core.run ps.length s = .next u ∧ u.agenda = later ∧ PerformedOn k ps s u pd pd' := by
  induction ps generalizing s pd with
  | nil => exact ⟨s, pd, rfl, hagenda, performedOn_nil found⟩
  | cons p ps ih =>
    have hstep := step_of_nextEvent_perform (nextEvent_of_agenda hagenda)
    obtain ⟨pd₁, h₁⟩ := performedOn_perform (s := s.afterDraw) p (by simpa using found)
    have h₁ : PerformedOn k [p] s (perform k p [] s.afterDraw) pd pd₁ := by
      obtain ⟨h1, h2, h3, h4, h5, h6, h7, h8, h9⟩ := h₁
      simp only [State.afterDraw_cfg, State.afterDraw_pes, State.afterDraw_pe] at h1 h2 h7 h8 h9
      exact ⟨h1, h2, h3, h4, h5, h6, h7, h8, h9⟩
    obtain ⟨u, pd', hrun, hlater, h₂⟩ := ih (step_agenda_of_cons hagenda hstep) h₁.found
    exact ⟨u, pd', (run_succ_of_step (M := core) hstep).trans hrun, hlater, h₁.cons h₂⟩

theorem performed_of_not_awaits {pd : Pending} {q : Progress} (hq : q ∈ pd.progress) (h : pd.awaits q.pe = false) :
    q.performed = true := by
  by_contra hf
  exact Bool.eq_false_iff.1 h (Pending.awaits_iff.2 ⟨q, hq, rfl, by simpa using hf⟩)

/-- Settles O53. -/
theorem performingEverywhereCompletes : Obligations.PerformingEverywhereCompletes := by
  unfold Obligations.PerformingEverywhereCompletes
  intro s k pd later hinv found hfresh hagenda
  obtain ⟨-, -, -, hpending, -⟩ := hinv
  have hdomain := Pending.map_pe_of_wf (hpending pd (List.mem_of_getElem? found))
  obtain ⟨u, pd', hrun, hlater, h⟩ := run_performAll hagenda found
  have hpe : ∀ q ∈ pd'.progress, q.pe ∈ s.domain pd.op := by
    intro q hq
    rw [← hdomain, ← h.follows.pes]
    exact List.mem_map_of_mem hq
  have hperformed : ∀ q ∈ pd'.progress, q.performed = true := fun q hq =>
    performed_of_not_awaits hq (h.marked _ (hpe q hq))
  refine ⟨u, pd', hrun, hlater, h.found, h.follows.op, hperformed, fun p hp hx => ?_, fun hflight => ?_⟩
  · refine h.gone p hp (State.mem_osh.1 hp).1 ?_ hx
    obtain ⟨q, hq, rfl⟩ := List.mem_map.1 (hdomain ▸ hp)
    exact Pending.awaits_iff.2 ⟨q, hq, rfl, hfresh q hq⟩
  · refine complete_iff.2 fun q hq => ⟨hperformed q hq, fun a ha => ?_⟩
    rw [h.pe, PE.setTlb_inFlight, hflight _ (hpe q hq)] at ha
    cases ha

/-! ### Fair runs -/

section fair
variable {schedule : Nat → Event} {r : Nat → State} (hrun : IsRun schedule r) (hinv : (r 0).Inv)
include hrun hinv

theorem inv_of_isRun (n : Nat) : (r n).Inv := by
  induction n with
  | zero => exact hinv
  | succ n ih => exact stepKeepsTheInvariant _ _ (show ((r n).scheduled (schedule n)).Inv from ih) (hrun n)

/-- A number that was given stays given. -/
theorem serial_lt_issues_of_isRun {n k : Nat} (hnk : n ≤ k) {pd : Pending} (hpd : pd ∈ (r n).pending) :
    pd.serial < (r k).issues := by
  induction k, hnk using Nat.le_induction with
  | base =>
    obtain ⟨-, -, -, hpending, -⟩ := inv_of_isRun hrun hinv n
    exact (hpending pd hpd).1
  | succ k _ ih => exact Nat.lt_of_lt_of_le ih (step_pendingAfter (hrun k)).issues_le

/-- Along a run, what bears the number of a record is a later state of the record. -/
theorem follows_of_isRun {n k : Nat} (hnk : n ≤ k) {pd : Pending} (hpd : pd ∈ (r n).pending) :
    ∀ pd' ∈ (r k).pending, pd'.serial = pd.serial → pd'.Follows pd := by
  induction k, hnk using Nat.le_induction with
  | base =>
    intro pd' hpd' hserial
    obtain ⟨-, -, -, -, hrise⟩ := inv_of_isRun hrun hinv n
    have hnodup : ((r n).pending.map Pending.serial).Nodup := List.pairwise_map.2 (hrise.imp Nat.ne_of_lt)
    exact List.inj_on_of_nodup_map hnodup hpd' hpd hserial ▸ .refl pd'
  | succ k hnk ih =>
    intro pd' hpd' hserial
    rcases (step_pendingAfter (hrun k)).comes_from hpd' with hnew | ⟨pd₁, hpd₁, hf⟩
    · have hlt : pd.serial < ((r k).scheduled (schedule k)).issues := serial_lt_issues_of_isRun hrun hinv hnk hpd
      omega
    · exact (ih pd₁ hpd₁ (hf.serial.symm.trans hserial)).trans hf

/-- Under fairness a record comes to wait for a PE no more. -/
theorem eventually_not_awaits (hfair : Fair schedule r) {n : Nat} {pd : Pending} (hpd : pd ∈ (r n).pending) (p : PEId) :
    ∀ᶠ k in Filter.atTop, ∀ pd' ∈ (r k).pending, pd'.serial = pd.serial → pd'.awaits p = false := by
  rw [Filter.eventually_atTop]
  cases ha : pd.awaits p with
  | false => exact ⟨n, fun k hk pd' hpd' hserial => (follows_of_isRun hrun hinv hk hpd pd' hpd' hserial).awaits p ha⟩
  | true =>
    obtain ⟨m, hm, index, extra, pd₀, hev, found, hserial₀, ha₀⟩ := hfair n pd.serial p ⟨pd, hpd, rfl, ha⟩
    have hnext : r (m + 1) = perform index p extra (r m) :=
      Host.Outcome.next.inj ((hrun m).symm.trans (step_of_nextEvent_perform hev))
    have hrecord := perform_record_of_awaits extra found ha₀
    rw [← hnext] at hrecord
    refine ⟨m + 1, fun k hk pd' hpd' hserial => ?_⟩
    exact (follows_of_isRun hrun hinv hk (List.mem_of_getElem? hrecord) pd' hpd' (hserial.trans hserial₀.symm)).awaits p
      (pd₀.awaits_markPerformed ..)

end fair

/-- Settles O52: the PEs of a record are finitely many. -/
theorem fairRunsPerformEveryInvalidation : Obligations.FairRunsPerformEveryInvalidation := by
  unfold Obligations.FairRunsPerformEveryInvalidation
  intro schedule r hinv hrun hfair n pd hpd
  have hall : ∀ᶠ k in Filter.atTop, ∀ p ∈ {p | p ∈ pd.progress.map Progress.pe}, ∀ pd' ∈ (r k).pending,
      pd'.serial = pd.serial → pd'.awaits p = false :=
    (Filter.eventually_all_finite (List.finite_toSet _)).2 fun p _ => eventually_not_awaits hrun hinv hfair hpd p
  obtain ⟨m, hm⟩ := Filter.eventually_atTop.1 hall
  refine ⟨max n m, Nat.le_max_left .., fun k hk pd' hpd' hserial => ?_⟩
  have hf := follows_of_isRun hrun hinv (Nat.le_trans (Nat.le_max_left ..) hk) hpd pd' hpd' hserial
  refine ⟨hf.op, fun q hq => performed_of_not_awaits hq ?_⟩
  exact hm k (Nat.le_trans (Nat.le_max_right ..) hk) q.pe (hf.pes ▸ List.mem_map_of_mem hq) pd' hpd' hserial

end Sys2Proof.Machine
end

section
/-! PROOFS. The statements on the register argument (30_encoding.md section 2) and on which entries must go
(40_invalidation_operation.md section 2). -/

namespace Sys2Proof.Machine

/-! ### The fields of the argument as numbers -/

/-- Settles O9. -/
theorem registerThirtyOneReadsZero : Obligations.RegisterThirtyOneReadsZero := by
  unfold Obligations.RegisterThirtyOneReadsZero
  exact fun pe => ⟨dif_neg (Nat.lt_irrefl 31), fun t h => dif_pos h⟩

theorem toNat_res0Hi (xt : Word64) : (res0Hi xt).toNat = xt.toNat / 2 ^ 48 := by
  have h := xt.isLt
  simp only [res0Hi, BitVec.extractLsb'_toNat, Nat.shiftRight_eq_div_pow]
  omega

theorem toNat_ttlRaw (xt : Word64) : (ttlRaw xt).toNat = xt.toNat / 2 ^ 44 % 16 := by
  simp only [ttlRaw, BitVec.extractLsb'_toNat, Nat.shiftRight_eq_div_pow]

theorem toNat_vaField (xt : Word64) : (vaField xt).toNat = xt.toNat % 2 ^ 44 := by
  simp only [vaField, BitVec.extractLsb'_toNat, Nat.shiftRight_zero]

theorem toNat_va (xt : Word64) : (va xt).toNat = xt.toNat % 2 ^ 44 * 2 ^ 12 := by
  simp only [va, BitVec.toNat_setWidth, BitVec.toNat_append, BitVec.toNat_ofNat, toNat_vaField, Nat.zero_mod, Nat.or_zero,
    Nat.shiftLeft_eq]
  omega

theorem toNat_ttl (cfg : Config) (xt : Word64) :
    (ttl cfg xt).toNat = if cfg.ttlImplemented then xt.toNat / 2 ^ 44 % 16 else 0 := by
  unfold ttl
  split
  · exact toNat_ttlRaw xt
  · rfl

/-- Settles O10. -/
theorem argumentFieldsAreSlices : Obligations.ArgumentFieldsAreSlices := by
  unfold Obligations.ArgumentFieldsAreSlices
  exact fun cfg xt => ⟨toNat_res0Hi xt, toNat_ttlRaw xt, toNat_vaField xt, toNat_va xt, toNat_ttl cfg xt⟩

/-! ### The conjuncts of `Required` as conditions on numbers -/

theorem toNat_bits55Down (v : Word64) (n : Nat) : (bits55Down v n).toNat = v.toNat % 2 ^ 56 / 2 ^ n := by
  simp only [bits55Down, BitVec.toNat_ushiftRight, BitVec.extractLsb'_toNat, Nat.shiftRight_eq_div_pow,
    Nat.pow_zero, Nat.div_one]

theorem vaOK_iff {op : TlbiOp} {e : TLBEntry} : vaOK op e = true ↔
    op.xt.toNat % 2 ^ 44 * 2 ^ 12 / 2 ^ e.log2Size = e.vaBase.toNat % 2 ^ 56 / 2 ^ e.log2Size := by
  have hva : op.xt.toNat % 2 ^ 44 * 2 ^ 12 % 2 ^ 56 = op.xt.toNat % 2 ^ 44 * 2 ^ 12 := by omega
  rw [vaOK, beq_iff_eq, ← BitVec.toNat_inj, toNat_bits55Down, toNat_bits55Down, toNat_va, hva]

theorem countsAsStage1_iff {cfg : Config} {st : Stage} : st.countsAsStage1 cfg = true ↔
    st = .stage1 ∨ (st = .combined ∧ cfg.combinedCountsAsStage1 = true) := by
  cases st <;> simp [Stage.countsAsStage1]

/-- `TTL[3:2]` is zero as written, or there is no TTL field. -/
theorem ttl_high_eq_zero_iff {cfg : Config} {xt : Word64} :
    (ttl cfg xt).extractLsb' 2 2 = 0 ↔ (cfg.ttlImplemented = true → xt.toNat / 2 ^ 46 % 4 = 0) := by
  rw [← BitVec.toNat_inj, BitVec.extractLsb'_toNat, toNat_ttl, Nat.shiftRight_eq_div_pow]
  cases cfg.ttlImplemented with
  | false => simp
  | true => simp; omega

theorem typeOK_iff {cfg : Config} {op : TlbiOp} {e : TLBEntry} : typeOK cfg op e = true ↔
    (e.stage = .stage1 ∨ (e.stage = .combined ∧ cfg.combinedCountsAsStage1 = true)) ∧ e.finalLevel = true ∧
      (e.descBits = .bits64 ∨
        (cfg.featD128 = true ∧ (cfg.ttlImplemented = true → op.xt.toNat / 2 ^ 46 % 4 = 0))) := by
  rw [typeOK, Bool.and_eq_true, Bool.and_eq_true, countsAsStage1_iff, and_assoc]
  refine and_congr_right fun _ => and_congr_right fun _ => ?_
  cases e.descBits with
  | bits64 => simp
  | bits128 =>
    simp only [Bool.and_eq_true, beq_iff_eq, ttl_high_eq_zero_iff, reduceCtorEq, false_or]
    exact Iff.rfl

theorem regimeOK_iff {op : TlbiOp} {e : TLBEntry} : regimeOK op e = true ↔
    ((op.regime = .regimeEL10 ∧ e.regime = .regimeEL10) ∨ (op.regime = .regimeEL20 ∧ e.regime = .regimeEL20)) ∧
      e.security = op.security := by
  rw [regimeOK, Bool.and_eq_true, beq_iff_eq, beq_iff_eq]
  cases op.regime with
  | regimeEL10 | regimeEL20 => simp [Regime.entryRegime]

theorem vmidOK_iff {op : TlbiOp} {e : TLBEntry} : vmidOK op e = true ↔
    (op.el2Enabled = true → ∀ v, op.vmid = .vmid v → e.vmid = v) := by
  unfold vmidOK
  cases op.vmid with
  | vmid v => simp [or_iff_not_imp_left]
  | vmidNone => simp

theorem ttlOK_iff {cfg : Config} {op : TlbiOp} {e : TLBEntry} : ttlOK cfg op e = true ↔
    ∀ g l, decodeTtl cfg (ttl cfg op.xt) = some (g, l) → e.granule = g ∧ e.level = l := by
  unfold ttlOK
  cases decodeTtl cfg (ttl cfg op.xt) with
  | none => simp
  | some hint =>
    obtain ⟨g, l⟩ := hint
    simp only [Bool.and_eq_true, beq_iff_eq, Option.some.injEq, Prod.mk.injEq]
    exact ⟨fun h _ _ ⟨hg, hl⟩ => hg ▸ hl ▸ h, fun h => h g l ⟨rfl, rfl⟩⟩

theorem required_iff {cfg : Config} {op : TlbiOp} {e : TLBEntry} : required cfg op e = true ↔
    typeOK cfg op e = true ∧ regimeOK op e = true ∧ vmidOK op e = true ∧ vaOK op e = true ∧ ttlOK cfg op e = true := by
  simp only [required, Bool.and_eq_true, and_assoc]

/-- Settles O14, conjunct by conjunct of rule R101. -/
theorem requiredSpelledOut : Obligations.RequiredSpelledOut := by
  unfold Obligations.RequiredSpelledOut
  intro cfg op e
  rw [required_iff, typeOK_iff, regimeOK_iff, vmidOK_iff, vaOK_iff, ttlOK_iff]
  simp only [and_assoc]

/-- Settles O16: the conjunct on the regime alone. -/
theorem otherRegimesAndSecurityStatesAreNotRequired : Obligations.OtherRegimesAndSecurityStatesAreNotRequired := by
  unfold Obligations.OtherRegimesAndSecurityStatesAreNotRequired
  intro cfg op e h
  obtain ⟨-, hregime, -⟩ := required_iff.1 h
  obtain ⟨hsame, hsecurity⟩ := regimeOK_iff.1 hregime
  rcases hsame with ⟨hop, he⟩ | ⟨hop, he⟩
  · exact ⟨by rw [he, hop]; rfl, hsecurity, by rw [he]; decide⟩
  · exact ⟨by rw [he, hop]; rfl, hsecurity, by rw [he]; decide⟩

/-- Settles O17: both regions are whole multiples of the entry's size, which divides the 32-bit space. -/
theorem highVaBitsMatchNoThirtyTwoBitEntry : Obligations.HighVaBitsMatchNoThirtyTwoBitEntry := by
  unfold Obligations.HighVaBitsMatchNoThirtyTwoBitEntry
  intro cfg op e hbase hsize hva
  refine Bool.eq_false_iff.2 fun h => ?_
  obtain ⟨-, -, -, hsame, -⟩ := required_iff.1 h
  rw [vaOK_iff, Nat.mod_eq_of_lt (Nat.lt_trans hbase (by decide))] at hsame
  have hlow : e.vaBase.toNat / 2 ^ e.log2Size < 2 ^ 32 / 2 ^ e.log2Size :=
    Nat.div_lt_div_of_lt_of_dvd (Nat.pow_dvd_pow 2 hsize) hbase
  have hhigh : 2 ^ 32 / 2 ^ e.log2Size ≤ op.xt.toNat % 2 ^ 44 * 2 ^ 12 / 2 ^ e.log2Size :=
    Nat.div_le_div_right (by omega)
  omega

/-! ### Arguments that require the same entries to go -/

theorem required_congr_xt {cfg : Config} {op : TlbiOp} {e : TLBEntry} {xt : Word64}
    (hva : vaOK { op with xt := xt } e = vaOK op e)
    (hhint : decodeTtl cfg (ttl cfg xt) = decodeTtl cfg (ttl cfg op.xt))
    (hhigh : (ttl cfg xt).extractLsb' 2 2 = (ttl cfg op.xt).extractLsb' 2 2) :
    required cfg { op with xt := xt } e = required cfg op e := by
  simp only [required, typeOK, regimeOK, vmidOK, ttlOK, hva, hhint, hhigh]

/-- An entry of `2 ^ n` bytes is compared with the argument without the low `n - 12` bits of its VA field. -/
theorem vaOK_congr_of_ignored_bits {op : TlbiOp} {e : TLBEntry} {xt : Word64} {k : Nat} (hk : k ≤ 44)
    (hsize : 12 + k ≤ e.log2Size) (h : xt.toNat / 2 ^ k = op.xt.toNat / 2 ^ k) :
    vaOK { op with xt := xt } e = vaOK op e := by
  have hregion (x : Nat) : x % 2 ^ 44 * 2 ^ 12 / 2 ^ e.log2Size = x / 2 ^ k % 2 ^ (44 - k) / 2 ^ (e.log2Size - 12 - k) := by
    have hsplit : 2 ^ e.log2Size = 2 ^ k * 2 ^ (e.log2Size - 12 - k) * 2 ^ 12 := by
      rw [← Nat.pow_add, ← Nat.pow_add]
      congr 1
      omega
    rw [hsplit, Nat.mul_div_mul_right _ _ (by decide), ← Nat.div_div_eq_div_mul,
      show 2 ^ 44 = 2 ^ k * 2 ^ (44 - k) by rw [← Nat.pow_add]; congr 1; omega, Nat.mod_mul_right_div_self]
  rw [Bool.eq_iff_iff, vaOK_iff, vaOK_iff]
  simp only [hregion, h]

theorem toNat_div_of_extractLsb'_eq {x y : Word64} {k : Nat} (hk : k ≤ 64)
    (h : x.extractLsb' k (64 - k) = y.extractLsb' k (64 - k)) : x.toNat / 2 ^ k = y.toNat / 2 ^ k := by
  have hslice (z : Word64) : (z.extractLsb' k (64 - k)).toNat = z.toNat / 2 ^ k := by
    rw [BitVec.extractLsb'_toNat, Nat.shiftRight_eq_div_pow, Nat.mod_eq_of_lt]
    refine Nat.div_lt_of_lt_mul ?_
    rw [← Nat.pow_add, Nat.add_sub_cancel' hk]
    exact z.isLt
  rw [← hslice, ← hslice, h]

/-- The low `k` bits of the argument do not count for an entry of at least `2 ^ (12 + k)` bytes. -/
theorem required_congr_of_ignored_bits {cfg : Config} {op : TlbiOp} {e : TLBEntry} {xt : Word64} {k : Nat} (hk : k ≤ 44)
    (hsize : 12 + k ≤ e.log2Size) (h : xt.extractLsb' k (64 - k) = op.xt.extractLsb' k (64 - k)) :
    required cfg { op with xt := xt } e = required cfg op e := by
  have hdiv := toNat_div_of_extractLsb'_eq (by omega) h
  have httl : ttl cfg xt = ttl cfg op.xt := by
    have hshift (x : Nat) : x / 2 ^ 44 = x / 2 ^ k / 2 ^ (44 - k) := by
      rw [Nat.div_div_eq_div_mul, ← Nat.pow_add, Nat.add_sub_cancel' hk]
    rw [← BitVec.toNat_inj, toNat_ttl, toNat_ttl, hshift, hdiv, ← hshift]
  exact required_congr_xt (vaOK_congr_of_ignored_bits hk hsize hdiv) (by rw [httl]) (by rw [httl])

theorem TLBEntry.granule_le_of_wf {cfg : Config} {e : TLBEntry} (h : e.wf cfg = true) : e.granule.log2Size ≤ e.log2Size := by
  simp only [TLBEntry.wf, Bool.and_eq_true, decide_eq_true_eq] at h
  obtain ⟨⟨⟨⟨-, -⟩, hgranule⟩, -⟩, -⟩ := h
  exact hgranule

/-- Settles O12: by the granule of the entry, 0, 2 or 4 low bits of the VA field lie below its size. -/
theorem lowVaBitsAreIgnoredByGranule : Obligations.LowVaBitsAreIgnoredByGranule := by
  unfold Obligations.LowVaBitsAreIgnoredByGranule
  intro cfg op e xt hwf
  have hgranule := TLBEntry.granule_le_of_wf hwf
  refine ⟨fun _ hsize => ?_, fun hg h => ?_, fun hg h => ?_⟩
  · rw [vaOK_iff, hsize, ← BitVec.toNat_inj, toNat_vaField, BitVec.extractLsb'_toNat, Nat.shiftRight_eq_div_pow]
    omega
  · rw [hg] at hgranule
    exact required_congr_of_ignored_bits (k := 2) (by decide) hgranule h
  · rw [hg] at hgranule
    exact required_congr_of_ignored_bits (k := 4) (by decide) hgranule h

/-- A TTL with `TTL[3:2] = 0b00` gives no hint (rule R81). -/
theorem decodeTtl_of_lt_four {cfg : Config} {t : BitVec 4} (h : t.toNat < 4) : decodeTtl cfg t = none := by
  unfold decodeTtl
  generalize t.toNat = n at h ⊢
  match n, h with
  | 0, _ | 1, _ | 2, _ | 3, _ => rfl

theorem ttl_high_of_lt_four {t : BitVec 4} (h : t.toNat < 4) : t.extractLsb' 2 2 = 0 := by
  rw [← BitVec.toNat_inj, BitVec.extractLsb'_toNat, Nat.shiftRight_eq_div_pow, Nat.div_eq_of_lt h]
  rfl

/-- Reserved bits of the argument do not count (rules R77, R79, R81). -/
theorem required_congr_of_reserved_bits {cfg : Config} {op : TlbiOp} {e : TLBEntry} {xt : Word64}
    (hva : vaField xt = vaField op.xt)
    (httl : cfg.ttlImplemented = true → ttlRaw xt = ttlRaw op.xt ∨ ((ttlRaw xt).toNat < 4 ∧ (ttlRaw op.xt).toNat < 4)) :
    required cfg { op with xt := xt } e = required cfg op e := by
  have hvaOK : vaOK { op with xt := xt } e = vaOK op e := by simp only [vaOK, va, hva]
  have hsame : ttl cfg xt = ttl cfg op.xt ∨ ((ttl cfg xt).toNat < 4 ∧ (ttl cfg op.xt).toNat < 4) := by
    unfold ttl
    split
    · exact httl ‹_›
    · exact .inl rfl
  rcases hsame with hsame | ⟨hx, hop⟩
  · exact required_congr_xt hvaOK (by rw [hsame]) (by rw [hsame])
  · exact required_congr_xt hvaOK (by rw [decodeTtl_of_lt_four hx, decodeTtl_of_lt_four hop])
      (by rw [ttl_high_of_lt_four hx, ttl_high_of_lt_four hop])

end Sys2Proof.Machine
end

section
/-! PROOFS. The statements on where the two forms end: their decision tables (41_tlbi_vaale1os.md, 42_tlbi_vaale1osnxs.md), the
states they complete in, and what an issue records (40_invalidation_operation.md section 1). -/

namespace Sys2Proof.Machine

/-! ### The controls as conditions on fields -/

theorem trapTtlb_iff {cfg : Config} {pe : PE} :
    trapTtlb cfg pe = true ↔ el2Enabled cfg pe = true ∧ pe.hcrEL2.ttlb = true := by
  simp [trapTtlb]

theorem trapTtlbos_iff {cfg : Config} {pe : PE} :
    trapTtlbos cfg pe = true ↔ el2Enabled cfg pe = true ∧ pe.hcrEL2.ttlbos = true := by
  simp [trapTtlbos]

theorem trapFine_iff {cfg : Config} {pe : PE} : trapFine cfg pe = true ↔
    el2Enabled cfg pe = true ∧ cfg.featFgt = true ∧ (cfg.haveEL3 = false ∨ pe.scrEL3.fgten = true) ∧
      pe.hfgitrEL2.tlbivaale1os = true := by
  simp [trapFine, Config.isFeatureImplemented, Config.haveEL, and_assoc]

theorem trapFineNxs_iff {cfg : Config} {pe : PE} : trapFineNxs cfg pe = true ↔
    el2Enabled cfg pe = true ∧ cfg.featFgt = true ∧ (cfg.haveEL3 = false ∨ pe.scrEL3.fgten = true) ∧
      cfg.featHcx = true ∧ (isHcrxEl2Enabled cfg pe = false ∨ pe.hcrxEL2.fgtnxs = false) ∧
      pe.hfgitrEL2.tlbivaale1os = true := by
  simp [trapFineNxs, Config.isFeatureImplemented, Config.haveEL, and_assoc]

theorem fnxsOverride_iff {cfg : Config} {pe : PE} : fnxsOverride cfg pe = true ↔
    cfg.featXs = true ∧ cfg.featHcx = true ∧ isHcrxEl2Enabled cfg pe = true ∧ pe.hcrxEL2.fnxs = true := by
  simp [fnxsOverride, Config.isFeatureImplemented, and_assoc]

theorem securityStateUsable_eq_false_iff {cfg : Config} {el : EL} {pe : PE} : securityStateUsable cfg el pe = false ↔
    cfg.featRme = true ∧ validSecurityStateAtEL cfg el pe = false := by
  simp [securityStateUsable, Config.isFeatureImplemented]

/-! ### The four ends of an instruction -/

section ends
variable {i : Instr} {s : State}

/-- Every execution ends in one of four ways: Undefined, the trap, the silent return, the issue. -/
theorem exec_ends (i : Instr) (s : State) :
    s.UndefinedCause i ∨ s.TrapCause i ∨ (¬ s.UndefinedCause i ∧ ¬ s.TrapCause i ∧ s.ReturnsSilently) ∨ s.Issues i := by
  by_cases hu : s.UndefinedCause i
  · exact .inl hu
  · by_cases ht : s.TrapCause i
    · exact .inr (.inl ht)
    · by_cases hr : s.ReturnsSilently
      · exact .inr (.inr (.inl ⟨hu, ht, hr⟩))
      · exact .inr (.inr (.inr ⟨hu, ht, hr⟩))

theorem exec_of_issues_of_accepted (h : s.Issues i) (ha : s.ArgumentAccepted i.rt) :
    exec i s = advancePc (s.addPending (s.callOf i)) := by
  rw [exec_of_issues h, if_neg (by rw [ha]; decide)]

/-- An issue for a host is the call of the EL2&0 regime. -/
theorem exec_of_issues_host (h : s.Issues i) (hhost : s.TargetsHost) : exec i s = issueEl20 (s.callAttr i) i.rt s := by
  rw [exec_of_issues h, State.callOf, if_pos hhost]
  rfl

/-- An issue for the guest is the call of the EL1&0 regime. -/
theorem exec_of_issues_guest (h : s.Issues i) (hguest : ¬ s.TargetsHost) :
    exec i s = issueEl10 (s.callAttr i) i.rt s := by
  rw [exec_of_issues h, State.callOf, if_neg hguest]
  rfl

theorem callAttr_base_of_el1 {t : Nat} (h : s.me.pstate.el = .el1) :
    s.callAttr (.tlbiVaale1os t) = if fnxsOverride s.cfg s.me then .excludeXS else .allAttr := by
  simp [State.callAttr, nxsForm, h]

theorem callAttr_base_of_ne_el1 {t : Nat} (h : s.me.pstate.el ≠ .el1) : s.callAttr (.tlbiVaale1os t) = .allAttr := by
  simp [State.callAttr, nxsForm, h]

theorem el_eq_el1_of_trapCause (h : s.TrapCause i) : s.me.pstate.el = .el1 := by
  obtain ⟨-, hel, -⟩ := h
  exact hel

theorem not_trapCause_of_ne_el1 (h : s.me.pstate.el ≠ .el1) : ¬ s.TrapCause i :=
  fun ht => h (el_eq_el1_of_trapCause ht)

theorem not_returnsSilently_of_ne_el3 (h : s.me.pstate.el ≠ .el3) : ¬ s.ReturnsSilently := fun hr => h hr.1

theorem not_undefinedCause_base {t : Nat} (hfeat : s.cfg.featTlbios = true) (hel : s.me.pstate.el ≠ .el0) :
    ¬ s.UndefinedCause (.tlbiVaale1os t) := by
  rintro (h | ⟨h, -⟩ | h)
  · rw [hfeat] at h; cases h
  · cases h
  · exact hel h

theorem not_undefinedCause_nxs {t : Nat} (hfeat : s.cfg.featTlbios = true) (hxs : s.cfg.featXs = true)
    (hel : s.me.pstate.el ≠ .el0) : ¬ s.UndefinedCause (.tlbiVaale1osnxs t) := by
  rintro (h | ⟨-, h⟩ | h)
  · rw [hfeat] at h; cases h
  · rw [hxs] at h; cases h
  · exact hel h

/-- At EL2 an instruction that is present issues. -/
theorem issues_of_el2 (hu : ¬ s.UndefinedCause i) (hel : s.me.pstate.el = .el2) : s.Issues i :=
  ⟨hu, not_trapCause_of_ne_el1 (by rw [hel]; decide), not_returnsSilently_of_ne_el3 (by rw [hel]; decide)⟩

/-- At EL1 an instruction that is present and not trapped issues. -/
theorem issues_of_el1 (hu : ¬ s.UndefinedCause i) (hel : s.me.pstate.el = .el1) (h₁ : trapTtlb s.cfg s.me = false)
    (h₂ : trapTtlbos s.cfg s.me = false)
    (h₃ : (if nxsForm i then trapFineNxs s.cfg s.me else trapFine s.cfg s.me) = false) : s.Issues i := by
  refine ⟨hu, ?_, not_returnsSilently_of_ne_el3 (by rw [hel]; decide)⟩
  rintro ⟨-, -, h | h | h⟩
  · rw [h₁] at h; cases h
  · rw [h₂] at h; cases h
  · rw [h₃] at h; cases h

/-- At EL3 an instruction that is present returns silently where the Security state of its target is not usable. -/
theorem returnsSilently_of_host (hel : s.me.pstate.el = .el3) (hhost : el0IsInHost s.cfg s.me = true) :
    s.ReturnsSilently ↔ securityStateUsable s.cfg .el2 s.me = false := by
  have ht : s.TargetsHost := ⟨by rw [hel]; decide, hhost⟩
  simp only [State.ReturnsSilently, if_pos ht, hel, true_and]

theorem returnsSilently_of_guest (hel : s.me.pstate.el = .el3) (hguest : ¬ el0IsInHost s.cfg s.me = true) :
    s.ReturnsSilently ↔ securityStateUsable s.cfg .el1 s.me = false := by
  have ht : ¬ s.TargetsHost := fun h => hguest h.2
  simp only [State.ReturnsSilently, if_neg ht, hel, true_and]

end ends

/-! ### The decision tables -/

section tables
variable {i : Instr} {s : State}

theorem el_eq_el3 {el : EL} (h0 : el ≠ .el0) (h1 : el ≠ .el1) (h2 : el ≠ .el2) : el = .el3 := by
  cases el with
  | el0 | el1 | el2 => contradiction
  | el3 => rfl

/-- At EL1 an instruction that is present and not trapped makes the call of the EL1&0 regime. -/
theorem exec_of_el1 (hu : ¬ s.UndefinedCause i) (hel : s.me.pstate.el = .el1) (h₁ : trapTtlb s.cfg s.me = false)
    (h₂ : trapTtlbos s.cfg s.me = false)
    (h₃ : (if nxsForm i then trapFineNxs s.cfg s.me else trapFine s.cfg s.me) = false) :
    exec i s = issueEl10 (s.callAttr i) i.rt s :=
  exec_of_issues_guest (issues_of_el1 hu hel h₁ h₂ h₃) fun hhost => hhost.1 hel

/-- At EL2 and EL3 for a host, with a usable Security state, an instruction that is present makes the call of the EL2&0
regime. -/
theorem exec_of_host (hu : ¬ s.UndefinedCause i) (hhost : el0IsInHost s.cfg s.me = true)
    (hel : s.me.pstate.el = .el2 ∨ (s.me.pstate.el = .el3 ∧ securityStateUsable s.cfg .el2 s.me = true)) :
    exec i s = issueEl20 (s.callAttr i) i.rt s := by
  rcases hel with hel | ⟨hel, husable⟩
  · exact exec_of_issues_host (issues_of_el2 hu hel) ⟨by rw [hel]; decide, hhost⟩
  · have hne : s.me.pstate.el ≠ .el1 := by rw [hel]; decide
    refine exec_of_issues_host ⟨hu, not_trapCause_of_ne_el1 hne, ?_⟩ ⟨hne, hhost⟩
    rw [returnsSilently_of_host hel hhost, husable]
    decide

/-- At EL2 and EL3 for the guest, with a usable Security state, an instruction that is present makes the call of the EL1&0
regime. -/
theorem exec_of_guest (hu : ¬ s.UndefinedCause i) (hguest : ¬ el0IsInHost s.cfg s.me = true)
    (hel : s.me.pstate.el = .el2 ∨ (s.me.pstate.el = .el3 ∧ securityStateUsable s.cfg .el1 s.me = true)) :
    exec i s = issueEl10 (s.callAttr i) i.rt s := by
  rcases hel with hel | ⟨hel, husable⟩
  · exact exec_of_issues_guest (issues_of_el2 hu hel) fun h => hguest h.2
  · have hne : s.me.pstate.el ≠ .el1 := by rw [hel]; decide
    refine exec_of_issues_guest ⟨hu, not_trapCause_of_ne_el1 hne, ?_⟩ fun h => hguest h.2
    rw [returnsSilently_of_guest hel hguest, husable]
    decide

/-- Reading a table: the row matches and says what happens, or the rows after it do. -/
theorem tableRow {p a b : Prop} [Decidable p] (found : p → a) (passed : ¬ p → b) : if p then a else b := by
  split
  · exact found ‹_›
  · exact passed ‹_›

/-- The rows of EL2 and EL3, which the two tables share but for the sixth argument of the call. -/
theorem exec_rows_of_el2_el3 (hu : ¬ s.UndefinedCause i) (h1 : s.me.pstate.el ≠ .el1) :
    if s.me.pstate.el = .el2 ∧ el0IsInHost s.cfg s.me = true then exec i s = issueEl20 (s.callAttr i) i.rt s
    else if s.me.pstate.el = .el2 then exec i s = issueEl10 (s.callAttr i) i.rt s
    else if el0IsInHost s.cfg s.me = true ∧ (s.cfg.featRme = true ∧ validSecurityStateAtEL s.cfg .el2 s.me = false) then
      exec i s = advancePc s
    else if el0IsInHost s.cfg s.me = true then exec i s = issueEl20 (s.callAttr i) i.rt s
    else if s.cfg.featRme = true ∧ validSecurityStateAtEL s.cfg .el1 s.me = false then exec i s = advancePc s
    else exec i s = issueEl10 (s.callAttr i) i.rt s := by
  simp only [← securityStateUsable_eq_false_iff]
  refine tableRow (fun ⟨h2, hh⟩ => exec_of_host hu hh (.inl h2)) fun hnot => ?_
  refine tableRow (fun h2 => exec_of_guest hu (fun hh => hnot ⟨h2, hh⟩) (.inl h2)) fun h2 => ?_
  have h3 := el_eq_el3 (fun h0 => hu (.inr (.inr h0))) h1 h2
  refine tableRow (fun ⟨hh, hv⟩ => exec_of_returnsSilently hu ((returnsSilently_of_host h3 hh).2 hv)) fun hv2 => ?_
  refine tableRow (fun hh => exec_of_host hu hh (.inr ⟨h3, Bool.eq_true_of_not_eq_false fun hv => hv2 ⟨hh, hv⟩⟩)) fun hh => ?_
  refine tableRow (fun hv => exec_of_returnsSilently hu ((returnsSilently_of_guest h3 hh).2 hv)) fun hv1 => ?_
  exact exec_of_guest hu hh (.inr ⟨h3, Bool.eq_true_of_not_eq_false hv1⟩)

/-- A condition of a row as the control it names: at EL1 the row that was passed over leaves the control off. -/
theorem control_eq_false {control : Bool} {p : Prop} (hiff : control = true ↔ p) (hel : s.me.pstate.el = .el1)
    (hrow : ¬ (s.me.pstate.el = .el1 ∧ p)) : control = false :=
  Bool.eq_false_iff.2 fun h => hrow ⟨hel, hiff.1 h⟩

end tables

/-- Settles O18, row by row. -/
theorem baseFormFollowsItsDecisionTable : Obligations.BaseFormFollowsItsDecisionTable := by
  unfold Obligations.BaseFormFollowsItsDecisionTable
  intro t s
  dsimp only
  refine tableRow (fun hfeat => exec_of_undefinedCause (.inl hfeat)) fun hfeat => ?_
  refine tableRow (fun hel => exec_of_undefinedCause (.inr (.inr hel))) fun hel0 => ?_
  have hu := not_undefinedCause_base (t := t) (by simpa using hfeat) hel0
  refine tableRow (fun ⟨hel, h⟩ => exec_of_trapCause ⟨hu, hel, .inl (trapTtlb_iff.2 h)⟩) fun hTtlb => ?_
  refine tableRow (fun ⟨hel, h⟩ => exec_of_trapCause ⟨hu, hel, .inr (.inl (trapTtlbos_iff.2 h))⟩) fun hTtlbos => ?_
  refine tableRow (fun ⟨hel, h⟩ => exec_of_trapCause ⟨hu, hel, .inr (.inr (trapFine_iff.2 h))⟩) fun hFine => ?_
  have hel1 (hel : s.me.pstate.el = .el1) := exec_of_el1 hu hel (control_eq_false trapTtlb_iff hel hTtlb)
    (control_eq_false trapTtlbos_iff hel hTtlbos) (control_eq_false trapFine_iff hel hFine)
  refine tableRow (fun ⟨hel, h⟩ => ?_) fun hFnxs => tableRow (fun hel => ?_) fun hel => ?_
  · rw [hel1 hel, callAttr_base_of_el1 hel, if_pos (fnxsOverride_iff.2 h)]
    rfl
  · rw [hel1 hel, callAttr_base_of_el1 hel, control_eq_false fnxsOverride_iff hel hFnxs]
    rfl
  · have hrows := exec_rows_of_el2_el3 hu hel
    rw [callAttr_base_of_ne_el1 hel] at hrows
    exact hrows

/-- Settles O19, row by row. -/
theorem nxsFormFollowsItsDecisionTable : Obligations.NxsFormFollowsItsDecisionTable := by
  unfold Obligations.NxsFormFollowsItsDecisionTable
  intro t s
  dsimp only
  refine tableRow (fun hfeat => exec_of_undefinedCause (.inl hfeat)) fun hfeat => ?_
  refine tableRow (fun hxs => exec_of_undefinedCause (.inr (.inl ⟨rfl, hxs⟩))) fun hxs => ?_
  refine tableRow (fun hel => exec_of_undefinedCause (.inr (.inr hel))) fun hel0 => ?_
  have hu := not_undefinedCause_nxs (t := t) (by simpa using hfeat) (by simpa using hxs) hel0
  refine tableRow (fun ⟨hel, h⟩ => exec_of_trapCause ⟨hu, hel, .inl (trapTtlb_iff.2 h)⟩) fun hTtlb => ?_
  refine tableRow (fun ⟨hel, h⟩ => exec_of_trapCause ⟨hu, hel, .inr (.inl (trapTtlbos_iff.2 h))⟩) fun hTtlbos => ?_
  refine tableRow (fun ⟨hel, h⟩ => exec_of_trapCause ⟨hu, hel, .inr (.inr (trapFineNxs_iff.2 h))⟩) fun hFine => ?_
  refine tableRow (fun hel => ?_) fun hel => exec_rows_of_el2_el3 hu hel
  exact exec_of_el1 hu hel (control_eq_false trapTtlb_iff hel hTtlb) (control_eq_false trapTtlbos_iff hel hTtlbos)
    (control_eq_false trapFineNxs_iff hel hFine)

/-! ### Completion -/

section completion
variable {s : State} {t : Nat}

/-- A call with an accepted argument, below the top of the address space. -/
theorem issueEl10_of_accepted (attr : TlbiAttr) (ha : s.ArgumentAccepted t) (hpc : s.PcBelowTop) :
    issueEl10 attr t s =
      .next (s.issued (securityStateAtEL s.cfg .el1 s.me) .regimeEL10 (.vmid (currentVmid s.cfg s.me)) attr (s.me.readX t)) :=
  (issueTlbiVaa_of_accepted ha _ _ _ attr).trans (advancePc_of_pcBelowTop hpc)

theorem issueEl20_of_accepted (attr : TlbiAttr) (ha : s.ArgumentAccepted t) (hpc : s.PcBelowTop) :
    issueEl20 attr t s =
      .next (s.issued (securityStateAtEL s.cfg .el2 s.me) .regimeEL20 .vmidNone attr (s.me.readX t)) :=
  (issueTlbiVaa_of_accepted ha _ _ _ attr).trans (advancePc_of_pcBelowTop hpc)

theorem securityStateUsable_of_valid {el : EL} (h : s.cfg.featRme = true → validSecurityStateAtEL s.cfg el s.me = true) :
    securityStateUsable s.cfg el s.me = true := by
  refine Bool.eq_true_of_not_eq_false fun hc => ?_
  obtain ⟨hrme, hinvalid⟩ := securityStateUsable_eq_false_iff.1 hc
  rw [h hrme] at hinvalid
  cases hinvalid

end completion

/-- Settles O20. -/
theorem bothFormsIssueAtEL1 : Obligations.BothFormsIssueAtEL1 := by
  unfold Obligations.BothFormsIssueAtEL1
  refine ⟨fun t s hfeat hel h₁ h₂ h₃ ha hpc => ?_, fun t s hfeat hxs hel h₁ h₂ h₃ ha hpc => ?_⟩
  · have hu := not_undefinedCause_base (t := t) hfeat (by rw [hel]; decide)
    rw [exec_of_el1 hu hel h₁ h₂ h₃, callAttr_base_of_el1 hel]
    exact issueEl10_of_accepted _ ha hpc
  · have hu := not_undefinedCause_nxs (t := t) hfeat hxs (by rw [hel]; decide)
    rw [exec_of_el1 hu hel h₁ h₂ h₃]
    exact issueEl10_of_accepted _ ha hpc

/-- An Exception level that is EL2 or EL3 is neither EL0 nor EL1. -/
theorem el_ne_of_el2_or_el3 {el : EL} {p : Prop} (h : el = .el2 ∨ (el = .el3 ∧ p)) : el ≠ .el0 ∧ el ≠ .el1 := by
  rcases h with h | ⟨h, -⟩ <;> rw [h] <;> decide

/-- Settles O21. -/
theorem bothFormsIssueForAHost : Obligations.BothFormsIssueForAHost := by
  unfold Obligations.BothFormsIssueForAHost
  refine ⟨fun t s hfeat hhost hel ha hpc => ?_, fun t s hfeat hxs hhost hel ha hpc => ?_⟩
  · obtain ⟨h0, h1⟩ := el_ne_of_el2_or_el3 hel
    rw [exec_of_host (not_undefinedCause_base hfeat h0) hhost (hel.imp_right (And.imp_right securityStateUsable_of_valid)),
      callAttr_base_of_ne_el1 h1]
    exact issueEl20_of_accepted _ ha hpc
  · obtain ⟨h0, -⟩ := el_ne_of_el2_or_el3 hel
    rw [exec_of_host (not_undefinedCause_nxs hfeat hxs h0) hhost (hel.imp_right (And.imp_right securityStateUsable_of_valid))]
    exact issueEl20_of_accepted _ ha hpc

/-- Settles O22. -/
theorem bothFormsIssueForTheGuest : Obligations.BothFormsIssueForTheGuest := by
  unfold Obligations.BothFormsIssueForTheGuest
  refine ⟨fun t s hfeat hguest hel ha hpc => ?_, fun t s hfeat hxs hguest hel ha hpc => ?_⟩
  · obtain ⟨h0, h1⟩ := el_ne_of_el2_or_el3 hel
    rw [exec_of_guest (not_undefinedCause_base hfeat h0) (Bool.eq_false_iff.1 hguest)
      (hel.imp_right (And.imp_right securityStateUsable_of_valid)), callAttr_base_of_ne_el1 h1]
    exact issueEl10_of_accepted _ ha hpc
  · obtain ⟨h0, -⟩ := el_ne_of_el2_or_el3 hel
    rw [exec_of_guest (not_undefinedCause_nxs hfeat hxs h0) (Bool.eq_false_iff.1 hguest)
      (hel.imp_right (And.imp_right securityStateUsable_of_valid))]
    exact issueEl10_of_accepted _ ha hpc

/-- Settles O23. -/
theorem invalidSecurityStateAtEL3IsANoOp : Obligations.InvalidSecurityStateAtEL3IsANoOp := by
  unfold Obligations.InvalidSecurityStateAtEL3IsANoOp
  intro t s hfeat hxs hel hrme hinvalid hpc
  have hsilent : s.ReturnsSilently := by
    by_cases hh : el0IsInHost s.cfg s.me = true
    · rw [if_pos hh] at hinvalid
      exact (returnsSilently_of_host hel hh).2 (securityStateUsable_eq_false_iff.2 ⟨hrme, hinvalid⟩)
    · rw [if_neg hh] at hinvalid
      exact (returnsSilently_of_guest hel hh).2 (securityStateUsable_eq_false_iff.2 ⟨hrme, hinvalid⟩)
  have h0 : s.me.pstate.el ≠ .el0 := by rw [hel]; decide
  have hadvance := advancePc_of_pcBelowTop hpc
  exact ⟨(exec_of_returnsSilently (not_undefinedCause_base hfeat h0) hsilent).trans hadvance,
    (exec_of_returnsSilently (not_undefinedCause_nxs hfeat hxs h0) hsilent).trans hadvance⟩

/-- Where `pc + 4` is past the top the policy decides. -/
theorem advancePc_of_top {s : State} (h : ¬ s.PcBelowTop) :
    (s.cfg.pcWrap = .refuse → advancePc s = .refused (.pcPastTop s.me.pc)) ∧
      (s.cfg.pcWrap ≠ .refuse → ∃ v, (s.cfg.pcWrap = .wrap → v = s.me.pc + 4) ∧ advancePc s = .next (s.setPc v)) := by
  rw [advancePc, if_neg h]
  cases hw : s.cfg.pcWrap with
  | free => exact ⟨nofun, fun _ => ⟨_, nofun, rfl⟩⟩
  | wrap => exact ⟨nofun, fun _ => ⟨_, fun _ => rfl, rfl⟩⟩
  | refuse => exact ⟨fun _ => rfl, fun h => absurd rfl h⟩

/-- Settles O24: the instruction advances the pc of the state itself, or of the state with its record. -/
theorem pcAtTheTopFollowsThePolicy : Obligations.PcAtTheTopFollowsThePolicy := by
  unfold Obligations.PcAtTheTopFollowsThePolicy
  intro i s hu ht hends htop
  by_cases hsilent : s.ReturnsSilently
  · obtain ⟨hrefuse, hgoes⟩ := advancePc_of_top htop
    simp only [if_pos hsilent, exec_of_returnsSilently hu hsilent]
    exact ⟨hrefuse, hgoes⟩
  · obtain ⟨hrefuse, hgoes⟩ := advancePc_of_top (s := s.addPending (s.callOf i)) htop
    simp only [if_neg hsilent, exec_of_issues_of_accepted ⟨hu, ht, hsilent⟩ (hends.resolve_left hsilent)]
    exact ⟨hrefuse, hgoes⟩

/-! ### What an issue records -/

theorem State.newOp_of_callOf (s : State) (i : Instr) : ∃ security regime vmid,
    s.callOf i = s.newOp security regime vmid (s.callAttr i) (s.me.readX i.rt) ∧
      ((security = securityStateAtEL s.cfg .el1 s.me ∧ regime = .regimeEL10 ∧ vmid = .vmid (currentVmid s.cfg s.me)) ∨
        (security = securityStateAtEL s.cfg .el2 s.me ∧ regime = .regimeEL20 ∧ vmid = .vmidNone)) := by
  unfold State.callOf
  split
  · exact ⟨_, _, _, rfl, .inr ⟨rfl, rfl, rfl⟩⟩
  · exact ⟨_, _, _, rfl, .inl ⟨rfl, rfl, rfl⟩⟩

theorem callAttr_callOf (s : State) (i : Instr) : (s.callOf i).attr = s.callAttr i := by
  obtain ⟨_, _, _, h, -⟩ := s.newOp_of_callOf i
  rw [h]
  rfl

/-- An instruction that adds to the pending invalidations issues, and adds the record of its call. -/
theorem issues_of_pending_ne {i : Instr} {s u : State} (h : exec i s = .next u) (hne : u.pending ≠ s.pending) :
    s.Issues i ∧ ∃ v, u = (s.addPending (s.callOf i)).setPc v := by
  rcases exec_ends i s with hu | ht | ⟨hu, -, hr⟩ | hi
  · rw [exec_of_undefinedCause hu] at h
    exact absurd ((raiseUndefined_next h).2 ▸ rfl) hne
  · rw [exec_of_trapCause ht] at h
    exact absurd ((raiseSystemAccessTrap_next h).2 ▸ rfl) hne
  · rw [exec_of_returnsSilently hu hr] at h
    obtain ⟨v, rfl⟩ := advancePc_next h
    exact absurd rfl hne
  · rw [exec_of_issues hi] at h
    split at h
    · cases h
    · exact ⟨hi, advancePc_next h⟩

theorem State.progress_newPending (s : State) (op : TlbiOp) {q : Progress} (h : q ∈ (s.newPending op).progress) :
    q.performed = false ∧ q.required = [] ∧ q.before = 0 := by
  obtain ⟨p, -, rfl⟩ := List.mem_map.1 h
  exact ⟨rfl, rfl, rfl⟩

theorem State.map_pe_newPending (s : State) (op : TlbiOp) : (s.newPending op).progress.map Progress.pe = s.domain op := by
  simp [State.newPending, Function.comp_def]

/-- Settles O25. -/
theorem issuedRecordsHoldTheArguments : Obligations.IssuedRecordsHoldTheArguments := by
  unfold Obligations.IssuedRecordsHoldTheArguments
  intro i s u h hne
  obtain ⟨-, v, rfl⟩ := issues_of_pending_ne h hne
  obtain ⟨security, regime, vmid, hcall, hargs⟩ := s.newOp_of_callOf i
  rw [hcall]
  have hattr : ∀ a : TlbiAttr, a = .allAttr ∨ a = .excludeXS
    | .allAttr => .inl rfl
    | .excludeXS => .inr rfl
  exact ⟨_, rfl, rfl, hargs, rfl, rfl, hattr _, rfl, rfl, rfl, rfl, s.map_pe_newPending _, rfl, rfl,
    fun q hq => s.progress_newPending _ hq⟩

theorem callAttr_eq_excludeXS_iff {s : State} {i : Instr} : s.callAttr i = .excludeXS ↔
    (∃ t, i = .tlbiVaale1osnxs t) ∨ (s.me.pstate.el = .el1 ∧ fnxsOverride s.cfg s.me = true) := by
  cases i with
  | tlbiVaale1os t => simp [State.callAttr, nxsForm]
  | tlbiVaale1osnxs t => simp [State.callAttr, nxsForm]

/-- Settles O26. -/
theorem attributeDecidesWhatIsWaitedFor : Obligations.AttributeDecidesWhatIsWaitedFor := by
  unfold Obligations.AttributeDecidesWhatIsWaitedFor
  refine ⟨fun a => ⟨rfl, by simp [waits]⟩, fun i s u pd h hpending => ?_⟩
  obtain ⟨hi, v, rfl⟩ := issues_of_pending_ne h (by simp [hpending])
  obtain rfl : s.newPending (s.callOf i) = pd := List.singleton_inj.1 (List.append_cancel_left hpending)
  have hattr : (s.newPending (s.callOf i)).op.attr = s.callAttr i := callAttr_callOf s i
  rw [hattr, callAttr_eq_excludeXS_iff]
  refine ⟨Iff.rfl, fun hxs => ?_⟩
  cases hc : s.callAttr i with
  | allAttr => rfl
  | excludeXS =>
    rcases callAttr_eq_excludeXS_iff.1 hc with ⟨t, rfl⟩ | ⟨-, hf⟩
    · exact absurd (.inr (.inl ⟨rfl, hxs⟩)) hi.1
    · rw [(fnxsOverride_iff.1 hf).1] at hxs
      cases hxs

/-- The fine-grained trap of the nXS form is one of the base form too. -/
theorem trapFine_of_trapFineNxs {cfg : Config} {pe : PE} (h : trapFineNxs cfg pe = true) : trapFine cfg pe = true := by
  obtain ⟨hel2, hfgt, hfgten, -, -, hbit⟩ := trapFineNxs_iff.1 h
  exact trapFine_iff.2 ⟨hel2, hfgt, hfgten, hbit⟩

/-- Settles O28: both forms make the call of the EL1&0 regime, with the same sixth argument. -/
theorem fnxsMakesTheFormsAlike : Obligations.FnxsMakesTheFormsAlike := by
  unfold Obligations.FnxsMakesTheFormsAlike
  intro t s hfeat hel hF h₁ h₂ h₃
  have h0 : s.me.pstate.el ≠ .el0 := by rw [hel]; decide
  have h₃x : trapFineNxs s.cfg s.me = false := Bool.eq_false_iff.2 fun h => by
    rw [trapFine_of_trapFineNxs h] at h₃
    cases h₃
  rw [exec_of_el1 (not_undefinedCause_base hfeat h0) hel h₁ h₂ h₃,
    exec_of_el1 (not_undefinedCause_nxs hfeat (fnxsOverride_iff.1 hF).1 h0) hel h₁ h₂ h₃x, callAttr_base_of_el1 hel,
    if_pos hF]
  rfl

/-- A raise never refuses. -/
theorem raiseUndefined_ne_refused {i : Instr} {s : State} (x : Refusal) : raiseUndefined i s ≠ .refused x := by
  unfold raiseUndefined
  split <;> nofun

theorem raiseSystemAccessTrap_ne_refused {target : EL} {ec : BitVec 6} {i : Instr} {s : State} (x : Refusal) :
    raiseSystemAccessTrap target ec i s ≠ .refused x := by
  unfold raiseSystemAccessTrap
  split <;> nofun

/-- Advancing the pc does not look at the argument. -/
theorem advancePc_ne_res0NotZero {s : State} (x : Word64) : advancePc s ≠ .refused (.res0NotZero x) := by
  unfold advancePc
  split
  · nofun
  · split <;> nofun

/-- Settles O13: the argument is read where an instruction issues, and reserved bits decide nothing but the refusal. -/
theorem reservedArgumentBitsFollowThePolicy : Obligations.ReservedArgumentBitsFollowThePolicy := by
  unfold Obligations.ReservedArgumentBitsFollowThePolicy
  refine ⟨fun i s hi hpolicy hbits => ?_, fun i s hpolicy => ?_, fun cfg op e xt => required_congr_of_reserved_bits⟩
  · rw [exec_of_issues hi, if_pos]
    rw [res0Refused, hpolicy, hbits]
    rfl
  · have haccepted : s.ArgumentAccepted i.rt := by
      rw [State.ArgumentAccepted, res0Refused, hpolicy]
      rfl
    refine ⟨haccepted, fun x h => ?_⟩
    rcases exec_ends i s with hu | ht | ⟨hu, -, hr⟩ | hi
    · rw [exec_of_undefinedCause hu] at h
      exact raiseUndefined_ne_refused _ h
    · rw [exec_of_trapCause ht] at h
      exact raiseSystemAccessTrap_ne_refused _ h
    · rw [exec_of_returnsSilently hu hr] at h
      exact advancePc_ne_res0NotZero _ h
    · rw [exec_of_issues_of_accepted hi haccepted] at h
      exact advancePc_ne_res0NotZero _ h

end Sys2Proof.Machine
end

section
/-! PROOFS. The statements on exceptions, their causes and their entry (60_exceptions.md sections 1, 4 and 5), and on what the
two forms leave unchanged (10_state.md sections 1, 2 and 4). -/

namespace Sys2Proof.Machine

/-! ### The causes of a fault -/

section faults
variable {i : Instr} {s : State}

/-- An instruction that faults raises Undefined or the trap, and exceptions are fault outcomes. -/
theorem exec_eq_fault {f : Fault} (h : exec i s = .fault f) : s.cfg.exceptions = .faultOutcome ∧
    ((s.UndefinedCause i ∧ f = .undefined (encode i)) ∨ (s.TrapCause i ∧ f = .systemAccessTrap .el2 0x18 (encode i))) := by
  rcases exec_ends i s with hu | ht | ⟨hu, -, hr⟩ | hi
  · rw [exec_of_undefinedCause hu, raiseUndefined] at h
    split at h
    · exact ⟨‹_›, .inl ⟨hu, (Host.Outcome.fault.inj h).symm⟩⟩
    · cases h
  · rw [exec_of_trapCause ht, raiseSystemAccessTrap] at h
    split at h
    · exact ⟨‹_›, .inr ⟨ht, (Host.Outcome.fault.inj h).symm⟩⟩
    · cases h
  · rw [exec_of_returnsSilently hu hr] at h
    exact absurd h (advancePc_ne_fault s f)
  · rw [exec_of_issues hi] at h
    split at h
    · cases h
    · exact absurd h (advancePc_ne_fault _ f)

theorem exec_eq_undefined_iff (hc : s.cfg.exceptions = .faultOutcome) :
    exec i s = .fault (.undefined (encode i)) ↔ s.UndefinedCause i := by
  constructor
  · intro h
    rcases exec_eq_fault h with ⟨-, ⟨hu, -⟩ | ⟨-, hf⟩⟩
    · exact hu
    · cases hf
  · intro hu
    simp only [exec_of_undefinedCause hu, raiseUndefined, hc]

theorem exec_eq_trap_iff (hc : s.cfg.exceptions = .faultOutcome) :
    exec i s = .fault (.systemAccessTrap .el2 0x18 (encode i)) ↔ s.TrapCause i := by
  constructor
  · intro h
    rcases exec_eq_fault h with ⟨-, ⟨-, hf⟩ | ⟨ht, -⟩⟩
    · cases hf
    · exact ht
  · intro ht
    simp only [exec_of_trapCause ht, raiseSystemAccessTrap, hc]

theorem undefinedCause_base_iff {t : Nat} :
    s.UndefinedCause (.tlbiVaale1os t) ↔ s.cfg.featTlbios = false ∨ s.me.pstate.el = .el0 := by
  simp [State.UndefinedCause, nxsForm]

theorem undefinedCause_nxs_iff {t : Nat} : s.UndefinedCause (.tlbiVaale1osnxs t) ↔
    s.cfg.featTlbios = false ∨ s.cfg.featXs = false ∨ s.me.pstate.el = .el0 := by
  simp [State.UndefinedCause, nxsForm]

/-- The trap condition of a form with its fine-grained trap `p`, which every cause takes from `el2Enabled`. -/
theorem trap_conditions_iff {cfg : Config} {pe : PE} {fine : Bool} {p : Prop}
    (hfine : fine = true ↔ el2Enabled cfg pe = true ∧ p) :
    (trapTtlb cfg pe = true ∨ trapTtlbos cfg pe = true ∨ fine = true) ↔
      el2Enabled cfg pe = true ∧ (pe.hcrEL2.ttlb = true ∨ pe.hcrEL2.ttlbos = true ∨ p) := by
  rw [trapTtlb_iff, trapTtlbos_iff, hfine, ← and_or_left, ← and_or_left]

theorem trapCause_base_iff {t : Nat} : s.TrapCause (.tlbiVaale1os t) ↔
    s.cfg.featTlbios = true ∧ s.me.pstate.el = .el1 ∧ el2Enabled s.cfg s.me = true ∧
      (s.me.hcrEL2.ttlb = true ∨ s.me.hcrEL2.ttlbos = true ∨
        (s.cfg.featFgt = true ∧ (s.cfg.haveEL3 = false ∨ s.me.scrEL3.fgten = true) ∧
          s.me.hfgitrEL2.tlbivaale1os = true)) := by
  rw [State.TrapCause, undefinedCause_base_iff, ← trap_conditions_iff trapFine_iff]
  constructor
  · rintro ⟨hu, hel, h⟩
    exact ⟨Bool.eq_true_of_not_eq_false fun hf => hu (.inl hf), hel, h⟩
  · rintro ⟨hfeat, hel, h⟩
    exact ⟨by simp [hfeat, hel], hel, h⟩

theorem trapCause_nxs_iff {t : Nat} : s.TrapCause (.tlbiVaale1osnxs t) ↔
    s.cfg.featTlbios = true ∧ s.cfg.featXs = true ∧ s.me.pstate.el = .el1 ∧ el2Enabled s.cfg s.me = true ∧
      (s.me.hcrEL2.ttlb = true ∨ s.me.hcrEL2.ttlbos = true ∨
        (s.cfg.featFgt = true ∧ (s.cfg.haveEL3 = false ∨ s.me.scrEL3.fgten = true) ∧ s.cfg.featHcx = true ∧
          (isHcrxEl2Enabled s.cfg s.me = false ∨ s.me.hcrxEL2.fgtnxs = false) ∧ s.me.hfgitrEL2.tlbivaale1os = true)) := by
  rw [State.TrapCause, undefinedCause_nxs_iff, ← trap_conditions_iff trapFineNxs_iff]
  constructor
  · rintro ⟨hu, hel, h⟩
    exact ⟨Bool.eq_true_of_not_eq_false fun hf => hu (.inl hf),
      Bool.eq_true_of_not_eq_false fun hf => hu (.inr (.inl hf)), hel, h⟩
  · rintro ⟨hfeat, hxs, hel, h⟩
    exact ⟨by simp [hfeat, hxs, hel], hel, h⟩

end faults

/-- Settles O29. -/
theorem undefinedHasExactlyItsCauses : Obligations.UndefinedHasExactlyItsCauses := by
  unfold Obligations.UndefinedHasExactlyItsCauses
  exact fun t s hc => ⟨(exec_eq_undefined_iff hc).trans undefinedCause_base_iff,
    (exec_eq_undefined_iff hc).trans undefinedCause_nxs_iff⟩

/-- Settles O30. -/
theorem trapHasExactlyItsCauses : Obligations.TrapHasExactlyItsCauses := by
  unfold Obligations.TrapHasExactlyItsCauses
  exact fun t s hc => ⟨(exec_eq_trap_iff hc).trans trapCause_base_iff, (exec_eq_trap_iff hc).trans trapCause_nxs_iff⟩

/-- Settles O31. -/
theorem onlyEL1IsTrappedAndOnlyToEL2 : Obligations.OnlyEL1IsTrappedAndOnlyToEL2 := by
  unfold Obligations.OnlyEL1IsTrappedAndOnlyToEL2
  intro i s target ec w h
  rcases exec_eq_fault h with ⟨-, ⟨-, hf⟩ | ⟨⟨-, hel, -⟩, hf⟩⟩
  · cases hf
  · obtain ⟨rfl, rfl, rfl⟩ := Fault.systemAccessTrap.inj hf
    exact ⟨hel, rfl, rfl, rfl⟩

/-! ### What the entry of an exception makes of a PE -/

section entry
variable (cfg : Config) (syn : Syndrome) (pe : PE)

theorem PE.enterException_pc (target : EL) :
    (pe.enterException cfg target syn).pc = (pe.excBank target).vbar + vectorOffset cfg target pe := rfl

/-- The bank of the level entered. -/
theorem PE.excBank_enterException (target : EL) : (pe.enterException cfg target syn).excBank target =
    { pe.excBank target with esr := syn, elr := pe.pc, spsr := pe.pstate } := by
  cases target <;> rfl

/-- The bank of another level. -/
theorem PE.excBank_enterException_of_ne {target el : EL} (htarget : target ≠ .el0) (hel : el ≠ .el0) (h : el ≠ target) :
    (pe.enterException cfg target syn).excBank el = pe.excBank el := by
  cases target with
  | el0 => contradiction
  | el1 =>
    cases el with
    | el0 | el1 => contradiction
    | el2 | el3 => rfl
  | el2 =>
    cases el with
    | el0 | el2 => contradiction
    | el1 | el3 => rfl
  | el3 =>
    cases el with
    | el0 | el3 => contradiction
    | el1 | el2 => rfl

/-- No entry writes a vector base. -/
theorem PE.enterException_vbar (target el : EL) :
    ((pe.enterException cfg target syn).excBank el).vbar = (pe.excBank el).vbar := by
  cases target <;> cases el <;> rfl

end entry

theorem takeException_me {s : State} (hcur : s.cur < s.pes.length) (target : EL) (syn : Syndrome) :
    (takeException target syn s).me = s.me.enterException s.cfg target syn :=
  s.pe_setPe_self s.cur _ hcur

theorem exec_of_undefinedCause_entered {i : Instr} {s : State} (hc : s.cfg.exceptions = .enterHandler)
    (hu : s.UndefinedCause i) :
    exec i s = .next (takeException (undefinedTarget s.cfg s.me) (undefinedSyndrome s.cfg s.me) s) := by
  simp only [exec_of_undefinedCause hu, raiseUndefined, hc]

theorem exec_of_trapCause_entered {i : Instr} {s : State} (hc : s.cfg.exceptions = .enterHandler) (ht : s.TrapCause i) :
    exec i s = .next (takeException .el2 (trapSyndrome 0x18 (encode i)) s) := by
  simp only [exec_of_trapCause ht, raiseSystemAccessTrap, hc]

/-- The offset of an exception to another level (G7). -/
theorem vectorOffset_of_ne {cfg : Config} {target : EL} {pe : PE} (h : target ≠ pe.pstate.el) :
    vectorOffset cfg target pe = 0x400#64 :=
  if_neg h

/-- From EL0 an Undefined exception goes to another level, from elsewhere to the same. -/
theorem vectorOffset_undefinedTarget (cfg : Config) (pe : PE) : vectorOffset cfg (undefinedTarget cfg pe) pe =
    if pe.pstate.el = .el0 then 0x400 else Config.freeSameElOffset cfg pe := by
  by_cases h : pe.pstate.el = .el0
  · rw [if_pos h]
    exact vectorOffset_of_ne (h ▸ undefinedTarget_ne_el0)
  · rw [if_neg h, undefinedTarget, if_neg h, vectorOffset, if_pos rfl]

/-! ### The syndrome of the trap -/

theorem toNat_append_eq_add {n m : Nat} (x : BitVec n) (y : BitVec m) : (x ++ y).toNat = x.toNat * 2 ^ m + y.toNat := by
  rw [BitVec.toNat_append, ← Nat.shiftLeft_add_eq_or_of_lt y.isLt, Nat.shiftLeft_eq]

/-- The ISS of a trapped instruction of this specification: its fields at their bits (G7). -/
theorem toNat_trapIss_encode (i : Instr) : (trapIss (encode i)).toNat = 1 * 2 ^ 20 + 7 * 2 ^ 17 + 0 * 2 ^ 14 +
    (match i with | .tlbiVaale1os _ => 8 | .tlbiVaale1osnxs _ => 9) * 2 ^ 10 + i.rt % 32 * 2 ^ 5 + 1 * 2 ^ 1 := by
  have hfields : fieldsOf (encode i) = fieldsOfInstr i := fieldsOf_wordOf _
  unfold trapIss
  rw [hfields]
  iterate 7 rw [toNat_append_eq_add]
  cases i with
  | tlbiVaale1os t | tlbiVaale1osnxs t =>
    simp only [fieldsOfInstr, Instr.rt, BitVec.toNat_ofNat, Nat.reduceMod, Nat.reducePow]
    omega

/-! ### The entries -/

/-- Settles O33. -/
theorem trapEntersTheHandlerAtEL2 : Obligations.TrapEntersTheHandlerAtEL2 := by
  unfold Obligations.TrapEntersTheHandlerAtEL2
  intro i s hc hcur ht
  have hel := el_eq_el1_of_trapCause ht
  refine ⟨_, exec_of_trapCause_entered hc ht, rfl, ?_⟩
  rw [takeException_me hcur, PE.enterException_pc, vectorOffset_of_ne (by rw [hel]; decide)]
  exact ⟨rfl, rfl, rfl, rfl, rfl, rfl, toNat_trapIss_encode i⟩

/-- Settles O34. -/
theorem undefinedEntersAHandler : Obligations.UndefinedEntersAHandler := by
  unfold Obligations.UndefinedEntersAHandler
  intro i s hc hcur hu
  have htarget : (if s.me.pstate.el = .el0 then
      (if s.me.hcrEL2.tge = true ∧ el2Enabled s.cfg s.me = true then EL.el2 else EL.el1) else s.me.pstate.el) =
      undefinedTarget s.cfg s.me := by
    simp only [undefinedTarget, Bool.and_eq_true]
  dsimp only
  rw [htarget]
  refine ⟨_, exec_of_undefinedCause_entered hc hu, rfl, ?_⟩
  rw [takeException_me hcur, PE.enterException_pc, vectorOffset_undefinedTarget, PE.excBank_enterException]
  exact ⟨rfl, rfl, rfl, rfl, rfl, rfl, fun el hel hne => PE.excBank_enterException_of_ne _ _ _ undefinedTarget_ne_el0 hel hne⟩

/-! ### Other general registers -/

/-- The state with other general registers on the executing PE. -/
def State.withX (s : State) (x : Vector Word64 31) : State := s.setPe s.cur { s.me with x := x }

section withX
variable {s : State} (x : Vector Word64 31)

theorem State.withX_me (hcur : s.cur < s.pes.length) : (s.withX x).me = { s.me with x := x } :=
  s.pe_setPe_self s.cur _ hcur

theorem el2Enabled_withX {cfg : Config} (href : cfg.helpers = .reference) (pe : PE) :
    el2Enabled cfg { pe with x := x } = el2Enabled cfg pe := by
  simp only [el2Enabled, href, isSecureEl2Enabled]

theorem isHcrxEl2Enabled_withX {cfg : Config} (href : cfg.helpers = .reference) (pe : PE) :
    isHcrxEl2Enabled cfg { pe with x := x } = isHcrxEl2Enabled cfg pe := by
  simp only [isHcrxEl2Enabled, href, el2Enabled_withX x href]

theorem undefinedTarget_withX {cfg : Config} (href : cfg.helpers = .reference) (pe : PE) :
    undefinedTarget cfg { pe with x := x } = undefinedTarget cfg pe := by
  simp only [undefinedTarget, el2Enabled_withX x href]

theorem undefinedCause_withX_iff (hcur : s.cur < s.pes.length) {i : Instr} :
    (s.withX x).UndefinedCause i ↔ s.UndefinedCause i := by
  simp only [State.UndefinedCause, State.withX_me x hcur]
  exact Iff.rfl

theorem trapCause_withX_iff (hcur : s.cur < s.pes.length) (href : s.cfg.helpers = .reference) {i : Instr} :
    (s.withX x).TrapCause i ↔ s.TrapCause i := by
  have hcfg : (s.withX x).cfg = s.cfg := rfl
  simp only [State.TrapCause, undefinedCause_withX_iff x hcur, State.withX_me x hcur, hcfg, trapTtlb, trapTtlbos, trapFine,
    trapFineNxs, el2Enabled_withX x href, isHcrxEl2Enabled_withX x href]

theorem PE.excBank_withX (pe : PE) (el : EL) : ({ pe with x := x } : PE).excBank el = pe.excBank el := by
  cases el <;> rfl

/-- An entry to another level is the same whatever the general registers hold. -/
theorem PE.enterException_withX {cfg : Config} {target : EL} {pe : PE} (syn : Syndrome) (h : target ≠ pe.pstate.el) :
    ({ pe with x := x } : PE).enterException cfg target syn = { pe.enterException cfg target syn with x := x } := by
  simp only [PE.enterException, vectorOffset_of_ne h, vectorOffset_of_ne (pe := { pe with x := x }) h]
  cases target <;> rfl

/-- The accessor for EL0 answers the bank of another level (assumption log 35). -/
theorem PE.excBank_eq_of_ne_el0 (el : EL) : ∃ el', el' ≠ .el0 ∧ ∀ pe : PE, pe.excBank el = pe.excBank el' := by
  cases el with
  | el0 => exact ⟨.el1, by decide, fun _ => rfl⟩
  | el1 | el2 | el3 => exact ⟨_, by decide, fun _ => rfl⟩

/-- Two entries to one level that differ in the general registers save the same but for IL and ISS. -/
theorem PE.saved_withX (cfg : Config) {target : EL} (htarget : target ≠ .el0) (pe : PE) {syn syn' : Syndrome}
    (hec : syn'.ec = syn.ec) (el : EL) :
    let b := (pe.enterException cfg target syn).excBank el
    let b' := (({ pe with x := x } : PE).enterException cfg target syn').excBank el
    b'.elr = b.elr ∧ b'.spsr = b.spsr ∧ b'.esr.ec = b.esr.ec := by
  obtain ⟨el', hel', hbank⟩ := PE.excBank_eq_of_ne_el0 el
  simp only [hbank]
  by_cases h : el' = target
  · rw [h, PE.excBank_enterException, PE.excBank_enterException]
    exact ⟨rfl, rfl, hec⟩
  · rw [PE.excBank_enterException_of_ne _ _ _ htarget hel' h, PE.excBank_enterException_of_ne _ _ _ htarget hel' h,
      PE.excBank_withX]
    exact ⟨rfl, rfl, rfl⟩

end withX

/-- Settles O32: the causes do not read the general registers, and an entry saves none of them. -/
theorem faultsDoNotReadTheArgument : Obligations.FaultsDoNotReadTheArgument := by
  unfold Obligations.FaultsDoNotReadTheArgument
  intro i s x href hcur
  have hcur' : (s.withX x).cur < (s.withX x).pes.length := by simpa [State.withX] using hcur
  have hme := State.withX_me x hcur
  refine ⟨fun f h => ?_, fun hc hcause => ?_⟩
  · rcases exec_eq_fault h with ⟨hc, ⟨hu, rfl⟩ | ⟨ht, rfl⟩⟩
    · exact (exec_eq_undefined_iff (s := s.withX x) hc).2 ((undefinedCause_withX_iff x hcur).2 hu)
    · exact (exec_eq_trap_iff (s := s.withX x) hc).2 ((trapCause_withX_iff x hcur href).2 ht)
  · rcases hcause with hu | ht
    · refine ⟨_, _, exec_of_undefinedCause_entered hc hu,
        exec_of_undefinedCause_entered (s := s.withX x) hc ((undefinedCause_withX_iff x hcur).2 hu), rfl, rfl, ?_⟩
      rw [takeException_me hcur, takeException_me hcur', hme, show (s.withX x).cfg = s.cfg from rfl,
        undefinedTarget_withX x href]
      refine ⟨PE.enterException_x .., rfl, PE.saved_withX x _ undefinedTarget_ne_el0 _ rfl, fun hel => ?_,
        fun ht => absurd hu ht.1⟩
      have hne : undefinedTarget s.cfg s.me ≠ s.me.pstate.el := hel ▸ undefinedTarget_ne_el0
      rw [PE.enterException_withX x _ hne, PE.enterException_pc, PE.enterException_pc]
    · have hne : EL.el2 ≠ s.me.pstate.el := by rw [el_eq_el1_of_trapCause ht]; decide
      refine ⟨_, _, exec_of_trapCause_entered hc ht,
        exec_of_trapCause_entered (s := s.withX x) hc ((trapCause_withX_iff x hcur href).2 ht), rfl, rfl, ?_⟩
      rw [takeException_me hcur, takeException_me hcur', hme, show (s.withX x).cfg = s.cfg from rfl,
        PE.enterException_withX x _ hne]
      refine ⟨rfl, rfl, fun el => ?_, fun _ => rfl, fun _ => rfl⟩
      rw [PE.excBank_withX]
      exact ⟨rfl, rfl, rfl⟩

/-! ### Frames -/

/-- What an instruction makes of its PE and of the pending records: it writes the pc and may add a record, or it enters a
handler and adds none. -/
theorem Ended.me_cases {i : Instr} {s u : State} (h : Ended i s u) :
    ((∃ v, u.me = s.me.setPc v) ∧ ((u.pending = s.pending ∧ u.issues = s.issues) ∨
        ∃ pd, u.pending = s.pending ++ [pd] ∧ u.issues = s.issues + 1)) ∨
      (u.pending = s.pending ∧ u.issues = s.issues ∧ s.cfg.exceptions = .enterHandler ∧
        ∃ target syn, target ≠ .el0 ∧ u.me = s.me.enterException s.cfg target syn) := by
  have hset (t : State) (v : Word64) (hme : t.me = s.me) : ∃ w, (t.setPc v).me = s.me.setPc w := by
    rcases t.pe_setPe_cases t.cur t.cur (t.me.setPc v) with ⟨-, -, h⟩ | h
    · exact ⟨v, h.trans (congrArg (·.setPc v) hme)⟩
    · exact ⟨s.me.pc, h.trans hme⟩
  cases h with
  | returned v h => exact .inl ⟨h ▸ hset s v rfl, .inl (h ▸ ⟨rfl, rfl⟩)⟩
  | issued op v _ _ _ h => exact .inl ⟨h ▸ hset (s.addPending op) v rfl, .inr ⟨s.newPending op, h ▸ ⟨rfl, rfl⟩⟩⟩
  | entered target syn conf notEl0 _ h =>
    rcases s.pe_setPe_cases s.cur s.cur (s.me.enterException s.cfg target syn) with ⟨-, -, hme⟩ | hme
    · exact .inr (h ▸ ⟨rfl, rfl, conf, target, syn, notEl0, hme⟩)
    · exact .inl ⟨⟨s.me.pc, h ▸ hme⟩, .inl (h ▸ ⟨rfl, rfl⟩)⟩

/-- An instruction changes no other PE. -/
theorem Ended.pe_of_ne {i : Instr} {s u : State} (h : Ended i s u) {q : PEId} (hq : q ≠ s.cur) : u.pe q = s.pe q := by
  cases h with
  | returned v h => exact h ▸ s.pe_setPe_ne _ _ hq
  | issued op v _ _ _ h => exact h ▸ (s.addPending op).pe_setPe_ne _ _ hq
  | entered target syn _ _ _ h => exact h ▸ s.pe_setPe_ne _ _ hq

/-- Settles O36. -/
theorem bothFormsFrameWhereExceptionsAreEntered : Obligations.BothFormsFrameWhereExceptionsAreEntered := by
  unfold Obligations.BothFormsFrameWhereExceptionsAreEntered
  intro i s u h
  have hended := exec_next h
  have hframe := hended.sameFrame
  refine ⟨hframe.cfg, hframe.cur, hframe.agenda, hframe.draws, hframe.pesLength, fun a => by rw [hframe.mem],
    fun q hq => hended.pe_of_ne hq, ?_⟩
  rcases hended.me_cases with ⟨⟨v, hme⟩, hpending⟩ | ⟨hpending, hissues, hc, target, syn, htarget, hme⟩
  · rw [hme]
    exact ⟨rfl, rfl, rfl, rfl, rfl, rfl, rfl, rfl, rfl, rfl, rfl, rfl, rfl, .inl ⟨rfl, rfl, rfl, rfl, hpending⟩⟩
  · have hvbar := PE.enterException_vbar s.cfg syn s.me target
    have hbank (el : EL) (hel : el ≠ .el0) (hne : target ≠ el) :=
      PE.excBank_enterException_of_ne s.cfg syn s.me htarget hel hne.symm
    rw [hme]
    refine ⟨by simp, by simp, by simp, by simp, by simp, by simp, by simp, by simp, by simp, by simp,
      hvbar .el1, hvbar .el2, hvbar .el3, .inr ⟨hpending, hissues, hc, htarget, ?_⟩⟩
    exact ⟨hbank .el1 (by decide), hbank .el2 (by decide), hbank .el3 (by decide)⟩

/-- Settles O35: the frame of O36 where no handler is entered. -/
theorem bothFormsFrameWhereExceptionsAreFaults : Obligations.BothFormsFrameWhereExceptionsAreFaults := by
  unfold Obligations.BothFormsFrameWhereExceptionsAreFaults
  intro i s u hc h
  obtain ⟨hcfg, hcur, hagenda, hdraws, hlen, hmem, hother, hx, hhcr, hscr, hhfg, hhcrx, hvmid, hvs, htlb, hflight, hstarted,
    -, -, -, ⟨hpstate, h1, h2, h3, hpending⟩ | ⟨-, -, henter, -⟩⟩ := bothFormsFrameWhereExceptionsAreEntered i s u h
  · exact ⟨hcfg, hcur, hagenda, hdraws, hlen, hmem, hother, hx, hpstate, hhcr, hscr, hhfg, hhcrx, hvmid, hvs, h1, h2, h3, htlb,
      hflight, hstarted, hpending⟩
  · rw [hc] at henter
    cases henter

end Sys2Proof.Machine
end
